-- ==== Sys2Proof/Word.lean ====
section
/-! DEFINITION. The two value types of the block, Byte and Word, and the word ALU's add and
subtract (spec/10_state.md R20 to R22; spec/00_scope.md R4 to R6, R16). -/

namespace Sys2Proof

/-- R5, R20: an 8-bit unsigned value; every memory cell and every byte operand is one. -/
abbrev Byte := BitVec 8

/-- R4, R6, R21: a 16-bit unsigned value; every register, address and word operand is one. -/
abbrev Word := BitVec 16

/-- R20: the Byte constructed from any integer, its non-negative remainder modulo 256. -/
def b8 (v : Int) : Byte := BitVec.ofInt 8 v

/-- R16, R21: the Word constructed from any integer, its non-negative remainder modulo 65536. -/
def w16 (v : Int) : Word := BitVec.ofInt 16 v

/-- R22: `a +w n`, Word addition, re-truncated to 16 bits. -/
def addW (a : Word) (n : Nat) : Word := a + BitVec.ofNat 16 n

/-- R22: `a -w n`, Word subtraction, re-truncated to 16 bits. -/
def subW (a : Word) (n : Nat) : Word := a - BitVec.ofNat 16 n

end Sys2Proof
end

