-- ==== Sys2Proof/Config.lean ====
section
/-! DEFINITION. The implementation parameters (spec/00_scope.md section 2, R4 to R15), the values
this hardware takes, the fixed literals, and the texts the spec leaves free. -/

namespace Sys2Proof

/-- R10: the operand order of `write_byte` in the instruction stream. -/
inductive WbOrder
  | byteFirst
  | wordFirst
  deriving DecidableEq, Repr

/-- The parameters the model takes as arguments (R7 to R10, R13, R14). They are fixed at
construction for a whole lifetime. -/
structure Config where
  /-- R7 MEMSIZE: the number of physical bytes of memory. -/
  memSize : Nat
  /-- R8 NREG: the number of registers. -/
  nreg : Nat
  /-- R9 TOS: the reset value of the stack pointer and of the base pointer. -/
  tos : Word
  /-- R10 WB_ORDER. -/
  wbOrder : WbOrder
  /-- R13 STEP_BUDGET: the optional deterministic instruction-count budget. -/
  stepBudget : Option Nat
  /-- R14 GP_INIT: the reset value of register 3 and of registers 4 to NREG-1, a draw. -/
  gpInit : Word
  deriving DecidableEq, Repr

/-- R7 to R10, R13: the values this hardware takes. `gpInit` is a draw in the spec (R14); 0x0000 is
the value R35 gives a deterministic simulator. DESIGN CHOICE, unsafe (log 2): every register holds
a named value at reset. -/
def Config.hardware : Config where
  memSize := 32768
  nreg := 4
  tos := 0x7FFF
  wbOrder := .byteFirst
  stepBudget := none
  gpInit := 0x0000

/-- R37, R155: how many boundaries draw `timeout` false after reset, where the host does not say
(`construct` takes any number). The spec leaves the moment open; no statement rests on this number.
DESIGN CHOICE, unsafe (log 4). -/
def Config.initialTimeoutAfter : Nat := 1000000

/-- R11 INPUT_SRC: the fixed source address of `input`. UNVERIFIED literal, unsafe (log 18). -/
def Config.inputSrc : Word := 0x2000

/-- R11 INPUT_LEN: the byte count of `input`. UNVERIFIED literal, unsafe (log 18). -/
def Config.inputLen : Nat := 260

/-- R11 INPUT_BACK: how far below the stack pointer `input` starts writing.
UNVERIFIED literal, unsafe (log 18). -/
def Config.inputBack : Nat := 256

/-- R15 DIAG: the text of the unknown-opcode diagnostic, an opaque function of the opcode and its
address. A free value, safe (log 13). -/
opaque Config.diagText : Byte → Word → String

/-- R33: the text the host renders for an output byte, which the spec leaves to the host.
A free value, safe (log 13). -/
opaque Config.charText : Byte → String

/-- R181: the segment name of the constructor's initial program, which is not in the source.
A free value, safe (log 14). -/
opaque Config.initialSegmentName : String

end Sys2Proof
end

