-- ==== Sys2Proof/Syntax.lean ====
section
/-! DEFINITION. The instructions: one constructor per row of spec/opcode_table.json
(spec/30_encoding.md R62, R64), and the opcodes that name the rows. -/

namespace Sys2Proof

/-- R62: a register-index field is a full byte; values from NREG up decode and then raise
IllegalRegister (R67). -/
abbrev RegIndex := Byte

/-- The eleven instructions with their operands (R64). The order of a constructor's operands is that
of the spec's notation (R75): the value first, then the address or register. -/
inductive Instr
  /-- R100, `00`. -/
  | halt
  /-- R140, `03 AH AL`. -/
  | out (addr : Word)
  /-- R110, `04 VH VL AH AL`. -/
  | writeWord (value addr : Word)
  /-- R111, `05 V AH AL` (ByteFirst) or `05 AH AL V` (WordFirst). -/
  | writeByte (value : Byte) (addr : Word)
  /-- R120, `06 R`. -/
  | push (reg : RegIndex)
  /-- R121, `07 R`. -/
  | pop (reg : RegIndex)
  /-- R122, `08 VH VL R`. -/
  | mov (value : Word) (reg : RegIndex)
  /-- R130, `09 R`. -/
  | call (reg : RegIndex)
  /-- R131, `0A`. -/
  | ret
  /-- R141, `0B X`; the operand byte is read and has no meaning (R68). -/
  | input (ignored : Byte)
  /-- R101, `90`. -/
  | noop
  deriving DecidableEq, Repr

/-- R72: the closed, exhaustively matched set of instruction kinds. -/
inductive Opcode
  | halt | out | writeWord | writeByte | push | pop | mov | call | ret | input | noop
  deriving DecidableEq, Repr

/-- The table row an instruction belongs to. -/
def Instr.opcode : Instr → Opcode
  | .halt => .halt
  | .out _ => .out
  | .writeWord _ _ => .writeWord
  | .writeByte _ _ => .writeByte
  | .push _ => .push
  | .pop _ => .pop
  | .mov _ _ => .mov
  | .call _ => .call
  | .ret => .ret
  | .input _ => .input
  | .noop => .noop

/-- R76: the pseudo-instruction `jmp A`, an absolute jump, stands for `mov A, r0`. -/
def jmp (addr : Word) : Instr := .mov addr 0

end Sys2Proof
end

