-- ==== Sys2Proof/Decode.lean ====
section
/-! DEFINITION. The opcode table, the operand size classes, byte order, the decoder (total on any
bytes, rejecting by name) and the encoder (spec/30_encoding.md R60 to R72). -/

namespace Sys2Proof

/-- R21, R46: the high byte of a Word, which lies at the lower address. -/
def hiByte (w : Word) : Byte := w.extractLsb' 8 8

/-- R21, R46: the low byte of a Word. -/
def loByte (w : Word) : Byte := w.extractLsb' 0 8

/-- R17: `hi ++ lo`, the Word with the given high and low bytes. -/
def wordOf (hi lo : Byte) : Word := hi ++ lo

/-- R61: the operand size classes. -/
inductive SizeClass
  | z | b | w | bw | ww
  deriving DecidableEq, Repr

/-- R61: how many operand bytes follow the opcode. -/
def SizeClass.operandBytes : SizeClass → Nat
  | .z => 0
  | .b => 1
  | .w => 2
  | .bw => 3
  | .ww => 4

/-- R64: the class column of the opcode table. -/
def Opcode.sizeClass : Opcode → SizeClass
  | .halt => .z
  | .out => .w
  | .writeWord => .ww
  | .writeByte => .bw
  | .push => .b
  | .pop => .b
  | .mov => .bw
  | .call => .b
  | .ret => .z
  | .input => .b
  | .noop => .z

/-- R61, R70: "1 + operand-size-in-bytes", a function of the opcode alone. -/
def Opcode.length (o : Opcode) : Nat := 1 + o.sizeClass.operandBytes

/-- R63: the operand-order flag of a class-BW row, none for the other classes. -/
def Opcode.wordFirst (order : WbOrder) : Opcode → Option Bool
  | .mov => some true
  | .writeByte => some (decide (order = .wordFirst))
  | .halt | .out | .writeWord | .push | .pop | .call | .ret | .input | .noop => none

/-- R64: the opcode bytes, "fixed, must be reproduced bit-exact". UNVERIFIED literals but for 0x00
and 0x08, unsafe (log 18). -/
def opcodeTable : List (Byte × Opcode) :=
  [(0x00, .halt), (0x03, .out), (0x04, .writeWord), (0x05, .writeByte), (0x06, .push),
   (0x07, .pop), (0x08, .mov), (0x09, .call), (0x0A, .ret), (0x0B, .input), (0x90, .noop)]

/-- R66, R72: the row an opcode byte names, `none` when the byte is unknown. -/
def opcodeOf (op : Byte) : Option Opcode :=
  (opcodeTable.find? fun row => row.1 == op).map Prod.snd

/-- R64, R65: the byte a row's instructions begin with. -/
def Opcode.byte : Opcode → Byte
  | .halt => 0x00
  | .out => 0x03
  | .writeWord => 0x04
  | .writeByte => 0x05
  | .push => 0x06
  | .pop => 0x07
  | .mov => 0x08
  | .call => 0x09
  | .ret => 0x0A
  | .input => 0x0B
  | .noop => 0x90

/-- R61, R63 to R65, R81: read a row's operand fields in stream order, each at its offset from the
opcode's address, through a reader of byte fields and a reader of word fields. The first field that
cannot be read decides the error. -/
def Opcode.readOperands {ε : Type} (order : WbOrder)
    (byteAt : Nat → Except ε Byte) (wordAt : Nat → Except ε Word) : Opcode → Except ε Instr
  | .halt => .ok .halt
  | .out => do
      let a ← wordAt 1
      return .out a
  | .writeWord => do
      let v ← wordAt 1
      let a ← wordAt 3
      return .writeWord v a
  | .writeByte =>
      match order with
      | .byteFirst => do
          let v ← byteAt 1
          let a ← wordAt 2
          return .writeByte v a
      | .wordFirst => do
          let a ← wordAt 1
          let v ← byteAt 3
          return .writeByte v a
  | .push => do
      let r ← byteAt 1
      return .push r
  | .pop => do
      let r ← byteAt 1
      return .pop r
  | .mov => do
      let v ← wordAt 1
      let r ← byteAt 3
      return .mov v r
  | .call => do
      let r ← byteAt 1
      return .call r
  | .ret => .ok .ret
  | .input => do
      let x ← byteAt 1
      return .input x
  | .noop => .ok .noop

/-- R61, R63, R64: the offsets from the opcode's address of a row's word fields, in stream order:
the fields whose read is checked (R81). -/
def Opcode.wordOffsets (order : WbOrder) : Opcode → List Nat
  | .out => [1]
  | .writeWord => [1, 3]
  | .writeByte =>
      match order with
      | .byteFirst => [2]
      | .wordFirst => [1]
  | .mov => [1]
  | .halt | .push | .pop | .call | .ret | .input | .noop => []

/-- Why bytes are no instruction. -/
inductive DecodeError
  /-- There is no opcode byte. -/
  | noBytes
  /-- R66: the opcode byte is not in the table. -/
  | unknownOpcode (op : Byte)
  /-- The bytes end before the instruction's last operand byte. -/
  | truncated (opcode : Opcode)
  deriving DecidableEq, Repr

/-- A byte field read from the instruction's own bytes. -/
def byteField (o : Opcode) (bytes : List Byte) (k : Nat) : Except DecodeError Byte :=
  match bytes[k]? with
  | some b => .ok b
  | none => .error (.truncated o)

/-- R62: a word field read from the instruction's own bytes, high byte at the lower offset. -/
def wordField (o : Opcode) (bytes : List Byte) (k : Nat) : Except DecodeError Word := do
  let hi ← byteField o bytes k
  let lo ← byteField o bytes (k + 1)
  return wordOf hi lo

/-- R60, R64, R72: the decoder, on a list of bytes in stream order. It gives the instruction and the
bytes after it. -/
def decode (order : WbOrder) : List Byte → Except DecodeError (Instr × List Byte)
  | [] => .error .noBytes
  | op :: operands =>
      match opcodeOf op with
      | none => .error (.unknownOpcode op)
      | some o => do
          let i ← o.readOperands order (byteField o (op :: operands)) (wordField o (op :: operands))
          return (i, (op :: operands).drop o.length)

/-- R64, R65: the bytes of an instruction in stream order. -/
def encode (order : WbOrder) : Instr → List Byte
  | .halt => [0x00]
  | .out a => [0x03, hiByte a, loByte a]
  | .writeWord v a => [0x04, hiByte v, loByte v, hiByte a, loByte a]
  | .writeByte v a =>
      match order with
      | .byteFirst => [0x05, v, hiByte a, loByte a]
      | .wordFirst => [0x05, hiByte a, loByte a, v]
  | .push r => [0x06, r]
  | .pop r => [0x07, r]
  | .mov v r => [0x08, hiByte v, loByte v, r]
  | .call r => [0x09, r]
  | .ret => [0x0A]
  | .input x => [0x0B, x]
  | .noop => [0x90]

/-- R70: the longest instruction's length in bytes. -/
def maxLength : Nat := 5

/-- The bytes of an instruction numbered as spec/opcode_table.json numbers its bits: bit 0 is the
least significant bit of the first byte, and every bit from `nbits` up is 0. -/
def tableBytes (nbits w : Nat) : List Byte :=
  (List.range maxLength).map fun k =>
    if 8 * k < nbits then BitVec.ofNat 8 (w / 2 ^ (8 * k)) else 0

/-- The instruction this hardware's decoder (WB_ORDER = ByteFirst, R10) reads from table bits. -/
def decodeTableWord (nbits w : Nat) : Option Instr :=
  match decode Config.hardware.wbOrder (tableBytes nbits w) with
  | .ok (i, _) => some i
  | .error _ => none

end Sys2Proof
end

