-- ==== Sys2Proof/Machine/State.lean ====
section
/-! DEFINITION. The state of the block as plain data, the reasons a step can stop, and the state
right after construction (spec/10_state.md; spec/60_exceptions.md R157; spec/70_reset_and_hazards.md
R180). -/

namespace Sys2Proof.Machine

/-- R30: the execution status. -/
inductive Status
  /-- Constructed, not yet run. -/
  | ready
  /-- Inside the loop. -/
  | running
  /-- Terminal: explicit halt, unknown opcode, or timeout. -/
  | halted
  /-- Terminal: a bounds fault or a register-index fault. -/
  | faulted
  deriving DecidableEq, Repr

/-- R29, R157: why the halted flag was set. -/
inductive HaltReason
  | explicit
  | unknownOpcode
  | timeout
  deriving DecidableEq, Repr

/-- R157: the codes of the halt reasons. -/
def HaltReason.code : HaltReason → Nat
  | .explicit => 0
  | .unknownOpcode => 1
  | .timeout => 2

/-- R31, R157: the kind of a fault, with the address of the word read or the register index. -/
inductive FaultKind
  | boundsFault (addr : Word)
  | illegalRegister (index : Byte)
  deriving DecidableEq, Repr

/-- R157: the codes of the fault kinds. -/
def FaultKind.code : FaultKind → Nat
  | .boundsFault _ => 1
  | .illegalRegister _ => 2

/-- R31: what entry to Faulted records. -/
structure FaultRecord where
  kind : FaultKind
  /-- The address a0 of the opcode of the faulting instruction. -/
  opcodeAddr : Word
  deriving DecidableEq, Repr

/-- R33: an entry of the output buffer. -/
inductive OutEntry
  /-- A byte appended by `out`; never zero. -/
  | char (b : Byte)
  /-- The diagnostic for unknown opcode `op` at address `opcodeAddr`. -/
  | diag (op : Byte) (opcodeAddr : Word)
  deriving DecidableEq, Repr

/-- R34: a segment descriptor. The types of the name and the length are the model's
(DESIGN CHOICE, safe, log 17). -/
structure Segment where
  name : String
  start : Word
  length : Nat
  deriving DecidableEq, Repr

/-- R41: the physical bytes, as (index, byte) pairs in rising order of index; an index that is not
listed reads as 0x00, the value of every byte after construction (R35). Log 11. -/
abbrev Memory := List Host.Cell

/-- R55: memory `reset()`: every byte 0x00. -/
def Memory.zeroed : Memory := []

/-- Everything the spec gives the block. -/
structure State where
  /-- R7 to R14: the parameters of this block, fixed at construction (log 1). -/
  cfg : Config
  /-- R23 to R25: the register file, a flat indexable array of NREG Words:
  x[0] ip, x[1] sp, x[2] bp, x[3] gp. -/
  regs : List Word
  /-- R41: physical memory. -/
  mem : Memory
  /-- R29: the halted flag. -/
  halted : Bool
  /-- R30: the execution status. -/
  status : Status
  /-- R29: the first halt reason recorded. -/
  haltReason : Option HaltReason
  /-- R31: the fault record. -/
  faultRecord : Option FaultRecord
  /-- R33: the output buffer, oldest entry first. -/
  output : List OutEntry
  /-- R34: the segment list, oldest first. -/
  segments : List Segment
  /-- R32: the number of instructions whose handler has completed since run started. -/
  icount : Nat
  /-- The MODEL's field for the environment input of R37: how many of the next boundaries draw
  `timeout` false. Every boundary after them draws true, so that R155's assumption (the draw is
  eventually true) holds of every state. DESIGN CHOICE, unsafe (log 4). -/
  timeoutAfter : Nat
  /-- The MODEL's field for R140's `diverge`: the address an uncompleted `out` goes on reading from;
  none between instructions. DESIGN CHOICE, unsafe (log 5). -/
  outScan : Option Word
  deriving DecidableEq, Repr

/-- R35, R180: the state `Construct` creates for the given parameters, with no program. -/
def State.initial (c : Config) : State where
  cfg := c
  regs := [0x0000, c.tos, c.tos] ++ List.replicate (c.nreg - 3) c.gpInit
  mem := Memory.zeroed
  halted := false
  status := .ready
  haltReason := none
  faultRecord := none
  output := []
  segments := []
  icount := 0
  timeoutAfter := Config.initialTimeoutAfter
  outScan := none

/-- R35: this hardware right after construction. Register 3 holds `Config.hardware.gpInit`
(log 2), `timeoutAfter` is `Config.initialTimeoutAfter` (log 4) and `outScan` is none (log 5). -/
def State.reset : State := State.initial Config.hardware

/-- Why the model stops without a next state. The spec's own faults are NO `Fault`: a bounds fault
and a register-index fault are next states with status Faulted (R150 to R154, log 8). -/
inductive Fault
  /-- Raised by `step`, and by nothing else, when the parameters in `State.cfg` lie outside the
  ranges of R7, R8 and R13, so that the spec describes no machine. Safe (log 10). -/
  | parametersOutOfRange
  deriving DecidableEq, Repr

/-- What the model refuses. No instruction's meaning answers with any of these. -/
inductive Refusal
  /-- Raised by an arm of `exec` whose instruction has no meaning yet; no arm is one. Safe. -/
  | notModelled (mnemonic : String)
  /-- Raised by LoadProgram and LoadData when the status is not Ready (R186): the request changes
  nothing. The spec's own refusal; safe (log 16). -/
  | loadAfterRun
  /-- Raised by Construct when the parameters lie outside the ranges of R7, R8 and R13. Safe
  (log 10). -/
  | parametersOutOfRange
  deriving DecidableEq, Repr

end Sys2Proof.Machine
end

