-- ==== Sys2Proof/WellFormed.lean ====
section
/-! DEFINITION. What the spec admits: the ranges of the parameters (spec/00_scope.md R7, R8, R13)
and the register indices that name a register (spec/30_encoding.md R62, R67). -/

namespace Sys2Proof

/-- R7 `2 <= MEMSIZE <= 65536`, R8 `4 <= NREG <= 16`, R13 `STEP_BUDGET` none or a positive integer.
TOS and GP_INIT are any Word (R9, R14). -/
def Config.wf (c : Config) : Bool :=
  decide (2 ≤ c.memSize) && decide (c.memSize ≤ 65536) &&
  decide (4 ≤ c.nreg) && decide (c.nreg ≤ 16) &&
  match c.stepBudget with
  | none => true
  | some n => decide (1 ≤ n)

/-- R62: a register-index operand is valid when it is below NREG; every other operand value is
legal (R68, R69). An instruction that fails this check still decodes, and its handler raises
IllegalRegister (R67). -/
def Instr.wellFormed (nreg : Nat) : Instr → Bool
  | .push r => decide (r.toNat < nreg)
  | .pop r => decide (r.toNat < nreg)
  | .mov _ r => decide (r.toNat < nreg)
  | .call r => decide (r.toNat < nreg)
  | .halt => true
  | .out _ => true
  | .writeWord _ _ => true
  | .writeByte _ _ => true
  | .ret => true
  | .input _ => true
  | .noop => true

end Sys2Proof
end

