-- ==== Sys2Proof/Machine/Ops.lean ====
section
/-! DEFINITION. The named operations over memory, registers and the output buffer, and taking a
fault (spec/20_memory.md R41 to R46; spec/10_state.md R23, R26, R27, R33;
spec/60_exceptions.md R152 to R154). -/

namespace Sys2Proof.Machine

/-- R41: the physical byte M[j]. An index that is not listed holds 0x00 (R35). -/
def Memory.read : Memory → Nat → Byte
  | [], _ => 0
  | (i, b) :: m, j => if i = j then b else Memory.read m j

/-- R41: `M[j] <- v`. It keeps the list rising and lists no byte 0x00. -/
def Memory.write : Memory → Nat → Byte → Memory
  | [], j, v => if v = 0 then [] else [(j, v)]
  | (i, b) :: m, j, v =>
      if j < i then (if v = 0 then (i, b) :: m else (j, v) :: (i, b) :: m)
      else if i = j then (if v = 0 then m else (j, v) :: m)
      else (i, b) :: Memory.write m j v

/-- The one canonical form: indices strictly rising and below `size`, and no byte listed that an
unlisted index reads as. -/
abbrev Memory.Wf (size : Nat) (m : Memory) : Prop :=
  m.Pairwise (fun c d => c.1 < d.1) ∧ ∀ c ∈ m, c.1 < size ∧ c.2 ≠ 0

/-- R42, R44, R45: the physical index of an address, reduced modulo MEMSIZE. The argument is
unbounded, so that R45's `a + 1` is reduced without a 16-bit wrap. -/
def State.phys (s : State) (a : Nat) : Nat := a % s.cfg.memSize

/-- R42 `MemRead(a, 1)`: never faults. -/
def State.readByte (s : State) (a : Word) : Byte := s.mem.read (s.phys a.toNat)

/-- R43: both bytes of the word at `a` lie inside the array, on the unbounded sum. -/
def State.wordReadable (s : State) (a : Word) : Bool := decide (a.toNat + 1 < s.cfg.memSize)

/-- R43 `MemRead(a, 2)`: `none` is BoundsFault(a). -/
def State.readWord (s : State) (a : Word) : Option Word :=
  if s.wordReadable a then some (wordOf (s.mem.read a.toNat) (s.mem.read (a.toNat + 1))) else none

/-- `M[j] <- v` in a state. -/
def State.poke (s : State) (j : Nat) (v : Byte) : State := { s with mem := s.mem.write j v }

/-- R44 `MemWrite(a, 1, v)`: never faults. -/
def State.writeByte (s : State) (a : Word) (v : Byte) : State := s.poke (s.phys a.toNat) v

/-- R45 `MemWrite(a, 2, w)`: never faults; the high byte first. -/
def State.writeWord (s : State) (a w : Word) : State :=
  (s.poke (s.phys a.toNat) (hiByte w)).poke (s.phys (a.toNat + 1)) (loByte w)

/-- R23 `x[i]`. An index past the register file is never read (R153 is raised first); only a state
whose file is shorter than NREG could, and reads 0 (log 19). -/
def State.getReg (s : State) (i : Nat) : Word := s.regs.getD i 0

/-- R23 `x[i] <- v`. -/
def State.setReg (s : State) (i : Nat) (v : Word) : State := { s with regs := s.regs.set i v }

/-- R24: the instruction pointer, an alias of x[0]. -/
def State.ip (s : State) : Word := s.getReg 0

/-- R24: the stack pointer, an alias of x[1]. -/
def State.sp (s : State) : Word := s.getReg 1

/-- R24: the base pointer, an alias of x[2]. -/
def State.bp (s : State) : Word := s.getReg 2

/-- R82: advance the instruction pointer past an instruction, before its handler runs. -/
def State.advance (s : State) (o : Opcode) : State := s.setReg 0 (addW s.ip o.length)

/-- R33 `emit`, for a sequence of entries. -/
def State.emit (s : State) (es : List OutEntry) : State := { s with output := s.output ++ es }

/-- R152 to R154: take a fault. The status becomes Faulted, the record holds the fault kind and the
opcode's address `a0`, the halted flag stays as it is, and every earlier effect of the instruction
remains. There is no handler, vector or saved state, and no return from it (R161, R162). -/
def State.takeFault (s : State) (kind : FaultKind) (a0 : Word) : State :=
  { s with status := .faulted, faultRecord := some { kind := kind, opcodeAddr := a0 } }

end Sys2Proof.Machine
end

