-- ==== Sys2Proof/Machine/Operands.lean ====
section
/-! DEFINITION. Fetching an instruction (spec/30_encoding.md R80, R81), the operand forms: register
indices (R67; spec/60_exceptions.md R153) and the stack (spec/43_stack_move.md R120, R121), and the
byte sequences of `out` and `input` (spec/45_output_input.md R140, R141). -/

namespace Sys2Proof.Machine

/-- What a fetch gives. -/
inductive Fetched
  /-- A decoded instruction. -/
  | instr (i : Instr)
  /-- R66: an opcode byte that is not in the table. -/
  | unknown (op : Byte)
  /-- R81: BoundsFault at the address of an operand word. -/
  | bounds (addr : Word)
  deriving DecidableEq, Repr

/-- R71, R81: the byte field at offset `k`. -/
def State.byteOperand (s : State) (k : Nat) : Except Word Byte := .ok (s.readByte (addW s.ip k))

/-- R71, R81: the word field at offset `k`, read with the checked accessor. -/
def State.wordOperand (s : State) (k : Nat) : Except Word Word :=
  match s.readWord (addW s.ip k) with
  | some w => .ok w
  | none => .error (addW s.ip k)

/-- R80, R81: fetch the opcode byte, which never faults, and decode its operand fields in stream
order. -/
def State.fetch (s : State) : Fetched :=
  match opcodeOf (s.readByte s.ip) with
  | none => .unknown (s.readByte s.ip)
  | some o =>
      match o.readOperands s.cfg.wbOrder s.byteOperand s.wordOperand with
      | .ok i => .instr i
      | .error a => .bounds a

/-- A handler that can raise a fault answers with the state it goes on from, or with the state in
which the fault has been taken. Both are next states (R152 to R154). -/
abbrev Handled := Except State State

/-- The next state of a handler. -/
def Handled.outcome : Handled → Host.Outcome State Fault Refusal
  | .ok s => .next s
  | .error s => .next s

/-- R67, R153: the register an index operand names; an index at or above NREG raises
IllegalRegister before any other effect of the handler. -/
def State.checkReg (s : State) (r : RegIndex) (a0 : Word) : Except State Nat :=
  if r.toNat < s.cfg.nreg then .ok r.toNat else .error (s.takeFault (.illegalRegister r) a0)

/-- R120: push register `r`: read it, decrement the stack pointer, write at the new stack
pointer. -/
def State.pushReg (s : State) (r : Nat) : State :=
  (s.setReg 1 (subW s.sp 2)).writeWord (subW s.sp 2) (s.getReg r)

/-- R121: `x[1] <- x[1] +w 2`. -/
def State.raiseSp (s : State) : State := s.setReg 1 (addW s.sp 2)

/-- R121: pop into register `r`: a checked read at the stack pointer, the register write, then the
increment. -/
def State.popReg (s : State) (r : Nat) (a0 : Word) : Handled :=
  match s.readWord s.sp with
  | none => .error (s.takeFault (.boundsFault s.sp) a0)
  | some v => .ok (s.setReg r v).raiseSp

/-- R140: read bytes from `a` upward, at most `n` of them, to the first zero byte. The answer is the
bytes before it and whether it was found. -/
def State.scan (s : State) : Nat → Word → List Byte × Bool
  | 0, _ => ([], false)
  | n + 1, a =>
      if s.readByte a = 0 then ([], true)
      else
        let rest := s.scan n (addW a 1)
        (s.readByte a :: rest.1, rest.2)

/-- R6: the number of addresses a Word can form. One pass of `out` over all of them ends at the
address it began at. -/
def addressCount : Nat := 65536

/-- R140: one pass of `out` from `a` over the addresses. When it meets a zero byte the instruction
completes; when no byte is zero, every address has been read, the bytes have been appended, and the
instruction goes on reading at `a` (log 5). -/
def State.outFrom (s : State) (a : Word) : State :=
  let found := s.scan addressCount a
  { s.emit (found.1.map .char) with outScan := if found.2 then none else some a }

/-- R141: copy the first `n` bytes of the block below the stack pointer value `sp`, in ascending
order, each byte read just before it is written. -/
def State.copyInput (s : State) (sp : Word) : Nat → State
  | 0 => s
  | n + 1 =>
      let t := s.copyInput sp n
      t.writeByte (addW (subW sp Config.inputBack) n) (t.readByte (addW Config.inputSrc n))

end Sys2Proof.Machine
end

