-- ==== Sys2Proof/Machine/CallReturn.lean ====
section
/-! DEFINITION. `call` and `ret` (spec/44_call_return.md). -/

namespace Sys2Proof.Machine

/-- R130: push the return address and the base pointer, and begin a new frame at the top of the
stack. -/
def State.enterFrame (s : State) : State :=
  let t := (s.pushReg 0).pushReg 2
  t.setReg 2 t.sp

/-- R130: indirect call through a register, which is read last. -/
def execCall (reg : RegIndex) (s : State) : Host.Outcome State Fault Refusal :=
  let t := s.advance .call
  Handled.outcome <|
    match t.checkReg reg s.ip with
    | .error f => .error f
    | .ok r => .ok (t.enterFrame.setReg 0 (t.enterFrame.getReg r))

/-- R131: pop the base pointer, pop the instruction pointer, then set the stack pointer from the
base pointer just restored. -/
def execRet (s : State) : Host.Outcome State Fault Refusal :=
  Handled.outcome <|
    match (s.advance .ret).popReg 2 s.ip with
    | .error f => .error f
    | .ok t =>
        match t.popReg 0 s.ip with
        | .error f => .error f
        | .ok u => .ok (u.setReg 1 u.bp)

end Sys2Proof.Machine
end

