-- ==== Sys2Proof/Machine/Flags.lean ====
section
/-! DEFINITION. The control state: the halted flag (the block's only flag, spec/10_state.md R28 to
R30), the unknown-opcode halt (spec/60_exceptions.md R151), and the instruction boundary
(spec/30_encoding.md R84; spec/60_exceptions.md R155, R156). -/

namespace Sys2Proof.Machine

/-- R29 `halt(reason)`: set the halted flag and record the reason, unless one is recorded. -/
def State.halt (s : State) (reason : HaltReason) : State :=
  { s with halted := true, status := .halted, haltReason := s.haltReason.or (some reason) }

/-- R78: run starts; the status becomes Running. -/
def State.startRun (s : State) : State := { s with status := .running }

/-- R66, R151: an unknown opcode `op` at the instruction pointer. No operand is read, the pointer
is not advanced, and there is no boundary check. -/
def State.unknownOpcode (s : State) (op : Byte) : State :=
  (s.emit [.diag op s.ip]).halt .unknownOpcode

/-- R37, R155: the value of the environment's `timeout` input at the boundary `k` boundaries after
the next one: false at the next `timeoutAfter` boundaries, and true from then on (log 4). -/
def State.timeoutAt (s : State) (k : Nat) : Bool := decide (s.timeoutAfter ≤ k)

/-- R37: the value of the environment's `timeout` input at the next boundary. -/
def State.timeoutNow (s : State) : Bool := s.timeoutAt 0

/-- R156: STEP_BUDGET is a number n and `icount >= n`. -/
def State.budgetSpent (s : State) : Bool :=
  match s.cfg.stepBudget with
  | none => false
  | some n => decide (n ≤ s.icount)

/-- R32, R84: `icount <- icount + 1`; the boundary's draw of `timeout` is used up. -/
def State.count (s : State) : State :=
  { s with icount := s.icount + 1, timeoutAfter := s.timeoutAfter - 1 }

/-- R84: the boundary after a handler that completed without a fault. -/
def State.boundary (s : State) : State :=
  if s.status = .running && (s.timeoutNow || s.count.budgetSpent) then s.count.halt .timeout
  else s.count

/-- R83, R84: the handler has completed without a fault: the status is not Faulted, and no `out` is
still reading (R140). -/
def State.handlerCompleted (s : State) : Bool :=
  decide (s.status ≠ .faulted) && s.outScan.isNone

/-- R84: what follows a handler: the boundary, unless the handler raised a fault or has not
completed. -/
def State.afterHandler (s : State) : State :=
  if s.handlerCompleted then s.boundary else s

end Sys2Proof.Machine
end

