-- ==== Sys2Proof/Machine/HaltNoop.lean ====
section
/-! DEFINITION. `halt` and `noop` (spec/41_halt_noop.md). Every meaning here and in the other family
files starts at the state of the fetch, with `ip` at the opcode's address a0, and performs R82's
advance itself before its handler (log 9). -/

namespace Sys2Proof.Machine

/-- R100: stop the engine. -/
def execHalt (s : State) : Host.Outcome State Fault Refusal :=
  .next ((s.advance .halt).halt .explicit)

/-- R101: no effect beyond the cycle's own advance. -/
def execNoop (s : State) : Host.Outcome State Fault Refusal :=
  .next (s.advance .noop)

end Sys2Proof.Machine
end

