-- ==== Sys2Proof/Machine/MemoryWrites.lean ====
section
/-! DEFINITION. `write_word` and `write_byte` (spec/42_memory_writes.md). -/

namespace Sys2Proof.Machine

/-- R110: store a word at an absolute address. -/
def execWriteWord (value addr : Word) (s : State) : Host.Outcome State Fault Refusal :=
  .next ((s.advance .writeWord).writeWord addr value)

/-- R111: store a byte at an absolute address. -/
def execWriteByte (value : Byte) (addr : Word) (s : State) : Host.Outcome State Fault Refusal :=
  .next ((s.advance .writeByte).writeByte addr value)

end Sys2Proof.Machine
end

