-- ==== Sys2Proof/Machine/OutputInput.lean ====
section
/-! DEFINITION. `out` and `input` (spec/45_output_input.md). -/

namespace Sys2Proof.Machine

/-- R140: append the zero-terminated bytes at `addr` to the output buffer. Where no byte of memory
is zero the instruction diverges: the next state holds `outScan`, in which `step` goes on with the
same instruction and never reaches the boundary (log 5). -/
def execOut (addr : Word) (s : State) : Host.Outcome State Fault Refusal :=
  .next ((s.advance .out).outFrom addr)

/-- R68, R141: copy the fixed block to just below and just above the stack pointer, which is read
once; the operand byte is ignored. -/
def execInput (_ignored : Byte) (s : State) : Host.Outcome State Fault Refusal :=
  .next ((s.advance .input).copyInput (s.advance .input).sp Config.inputLen)

end Sys2Proof.Machine
end

