-- ==== Sys2Proof/Machine/StackMove.lean ====
section
/-! DEFINITION. `push`, `pop` and `mov` (spec/43_stack_move.md). -/

namespace Sys2Proof.Machine

/-- R120: push a register onto the stack. -/
def execPush (reg : RegIndex) (s : State) : Host.Outcome State Fault Refusal :=
  let t := s.advance .push
  Handled.outcome <|
    match t.checkReg reg s.ip with
    | .error f => .error f
    | .ok r => .ok (t.pushReg r)

/-- R121: pop the stack into a register. -/
def execPop (reg : RegIndex) (s : State) : Host.Outcome State Fault Refusal :=
  let t := s.advance .pop
  Handled.outcome <|
    match t.checkReg reg s.ip with
    | .error f => .error f
    | .ok r => t.popReg r s.ip

/-- R122: load an immediate word into a register. -/
def execMov (value : Word) (reg : RegIndex) (s : State) : Host.Outcome State Fault Refusal :=
  let t := s.advance .mov
  Handled.outcome <|
    match t.checkReg reg s.ip with
    | .error f => .error f
    | .ok r => .ok (t.setReg r value)

end Sys2Proof.Machine
end

