-- ==== Sys2Proof/Machine/Dispatch.lean ====
section
/-! DEFINITION. One arm per instruction (spec/30_encoding.md R64, R83). -/

namespace Sys2Proof.Machine

def exec (i : Instr) (s : State) : Host.Outcome State Fault Refusal :=
  match i with
  | .halt => Sys2Proof.Machine.execHalt s
  | .out addr => Sys2Proof.Machine.execOut addr s
  | .writeWord value addr => Sys2Proof.Machine.execWriteWord value addr s
  | .writeByte value addr => Sys2Proof.Machine.execWriteByte value addr s
  | .push reg => Sys2Proof.Machine.execPush reg s
  | .pop reg => Sys2Proof.Machine.execPop reg s
  | .mov value reg => Sys2Proof.Machine.execMov value reg s
  | .call reg => Sys2Proof.Machine.execCall reg s
  | .ret => Sys2Proof.Machine.execRet s
  | .input ignored => Sys2Proof.Machine.execInput ignored s
  | .noop => Sys2Proof.Machine.execNoop s

end Sys2Proof.Machine
end

