-- ==== Sys2Proof/Machine/HostInterface.lean ====
section
/-! DEFINITION. What the host does before Run and sees after it: Construct, LoadProgram, LoadData
and observation (spec/10_state.md R36; spec/70_reset_and_hazards.md R180 to R187). Run itself is
`step` repeated (spec/30_encoding.md R78, R79). -/

namespace Sys2Proof.Machine

/-- R183: the loader writes byte `i`, `i + 1`, … of a block at `A +w i`, `A +w (i + 1)`, …, each as
`write_byte` does. -/
def State.loadBytes (s : State) (start : Word) : Nat → List Byte → State
  | _, [] => s
  | i, b :: bs => (s.writeByte (addW start i) b).loadBytes start (i + 1) bs

/-- R182, R184: write a block and record its segment. -/
def State.place (s : State) (start : Word) (bytes : List Byte) (name : String) : State :=
  let t := s.loadBytes start 0 bytes
  { t with segments := t.segments ++ [{ name := name, start := start, length := bytes.length }] }

/-- R184: the start of auto-placed data, the sum of the lengths of all segments as a Word. -/
def State.autoStart (s : State) : Word := w16 ((s.segments.map Segment.length).sum : Nat)

/-- R182, R186 `LoadProgram(A, bytes, name)`. -/
def State.loadProgram (s : State) (start : Word) (bytes : List Byte) (name : String) :
    Host.Outcome State Fault Refusal :=
  if s.status = .ready then .next ((s.place start bytes name).setReg 0 start)
  else .refused .loadAfterRun

/-- R184, R186 `LoadData(A, bytes, name)`: the zero address asks for auto-placement. -/
def State.loadData (s : State) (start : Word) (bytes : List Byte) (name : String) :
    Host.Outcome State Fault Refusal :=
  if s.status = .ready then
    .next (s.place (if start = 0 then s.autoStart else start) bytes name)
  else .refused .loadAfterRun

/-- R180, R181 `Construct`, with the parameters, the number of boundaries at which the environment
draws `timeout` false (R37, R155, log 4) and the optional initial program. -/
def construct (c : Config) (timeoutAfter : Nat) (program : Option (List Byte)) :
    Host.Outcome State Fault Refusal :=
  if c.wf then
    match program with
    | none => .next { State.initial c with timeoutAfter := timeoutAfter }
    | some bytes =>
        State.loadProgram { State.initial c with timeoutAfter := timeoutAfter } 0 bytes
          Config.initialSegmentName
  else .refused .parametersOutOfRange

/-- R36, R159: what the host may observe. -/
structure Observation where
  halted : Bool
  status : Status
  haltReason : Option HaltReason
  faultRecord : Option FaultRecord
  output : List OutEntry
  regs : List Word
  mem : Memory
  deriving DecidableEq, Repr

/-- R36, R159: the observation of a state. -/
def State.observe (s : State) : Observation where
  halted := s.halted
  status := s.status
  haltReason := s.haltReason
  faultRecord := s.faultRecord
  output := s.output
  regs := s.regs
  mem := s.mem

/-- R15, R33: the host's rendering of an output entry, an opaque text (log 13). -/
def OutEntry.text : OutEntry → String
  | .char b => Config.charText b
  | .diag op a0 => Config.diagText op a0

/-- R33, R36: the output buffer as the host's text. -/
def State.outputText (s : State) : String := String.join (s.output.map OutEntry.text)

end Sys2Proof.Machine
end

