-- ==== Sys2Proof/Machine/Step.lean ====
section
/-! DEFINITION. One step of the engine (spec/30_encoding.md R78 to R85). -/

namespace Sys2Proof.Machine

/-- R84: what follows the answer of a meaning. -/
def finish : Host.Outcome State Fault Refusal → Host.Outcome State Fault Refusal
  | .next s => .next s.afterHandler
  | .fault f => .fault f
  | .refused r => .refused r

/-- R85: one instruction step of a Running engine. An `out` that has not completed goes on (R140);
otherwise the engine fetches, decodes, and executes. -/
def engineStep (s : State) : Host.Outcome State Fault Refusal :=
  match s.outScan with
  | some a => finish (.next (s.outFrom a))
  | none =>
      match s.fetch with
      | .unknown op => .next (s.unknownOpcode op)
      | .bounds a => .next (s.takeFault (.boundsFault a) s.ip)
      | .instr i => finish (exec i s)

/-- R78, R79: one step. From Ready, Run starts and the first instruction is performed (log 6). In
Halted and Faulted nothing changes (R78, log 7). -/
def step (s : State) : Host.Outcome State Fault Refusal :=
  if s.cfg.wf then
    match s.status with
    | .ready => engineStep s.startRun
    | .running => engineStep s
    | .halted => .next s
    | .faulted => .next s
  else .fault .parametersOutOfRange

/-- The instruction whose table bits are `w`, stored where the next step fetches: the bytes at the
instruction pointer (R80). It stands for the host's load of a program (log 12). -/
def State.withFetchWord (s : State) (nbits w : Nat) : State :=
  s.loadBytes s.ip 0 (tableBytes nbits w)

end Sys2Proof.Machine
end

