-- ==== Sys2Proof/Safety.lean ====
section
/-! DEFINITION. The terms claims use: the states the rules describe, the instruction at the
instruction pointer as bytes, and how a run ends (spec/10_state.md R29 to R31;
spec/30_encoding.md R71, R81; spec/60_exceptions.md R150, R159). -/

namespace Sys2Proof.Machine

/-- The states the rules of the spec describe: parameters in range (R7, R8, R13), NREG registers
(R23), memory in its canonical form (R41), the halted flag "true exactly when the status is Halted"
(R30), a halt reason exactly then (R29), a fault record exactly in Faulted (R31), and an uncompleted
`out` only while Running (R140). -/
abbrev State.Wf (s : State) : Prop :=
  s.cfg.wf = true ∧ s.regs.length = s.cfg.nreg ∧ s.mem.Wf s.cfg.memSize ∧
  (s.halted = true ↔ s.status = .halted) ∧
  (s.haltReason.isSome = true ↔ s.status = .halted) ∧
  (s.faultRecord.isSome = true ↔ s.status = .faulted) ∧
  (s.outScan.isSome = true → s.status = .running)

/-- R78 to R80: the next step fetches an instruction: the status is Ready or Running, and no `out`
is uncompleted. -/
abbrev State.Fetches (s : State) : Prop :=
  (s.status = .ready ∨ s.status = .running) ∧ s.outScan = none

/-- R71: the bytes of memory at the instruction pointer, as many as the longest instruction has. -/
def State.instrBytes (s : State) : List Byte :=
  (List.range maxLength).map fun k => s.readByte (addW s.ip k)

/-- R81: every operand word of the row at the instruction pointer passes the read check. -/
abbrev State.OperandsReadable (s : State) (o : Opcode) : Prop :=
  ∀ k ∈ o.wordOffsets s.cfg.wbOrder, s.wordReadable (addW s.ip k) = true

/-- The registers other than those listed are unchanged, and so is their number. -/
abbrev State.SameRegsExcept (s t : State) (changed : List Nat) : Prop :=
  t.regs.length = s.regs.length ∧ ∀ r, r ∉ changed → t.getReg r = s.getReg r

/-- A value that was `a` in one state and `a'` in another has been left alone in both, or has become
the same in both. -/
abbrev SameChange {α : Type} (a a' b b' : α) : Prop := (b = a ∧ b' = a') ∨ b' = b

/-- The Word at a physical index, high byte first (R43, R46). -/
def State.wordAt (s : State) (j : Nat) : Word := wordOf (s.mem.read j) (s.mem.read (j + 1))

/-- R153, R154: the state an instruction of `len` bytes leaves when its register index is at or
above NREG: the instruction pointer advanced, and nothing else changed but the fault taken. -/
def State.illegalRegister (s : State) (len : Nat) (index : RegIndex) : State :=
  { s with
    regs := s.regs.set 0 (addW s.ip len)
    status := .faulted
    faultRecord := some { kind := .illegalRegister index, opcodeAddr := s.ip } }

/-- R81, R152, R154: the state an operand word at `addr` that cannot be read leaves: nothing changed
but the fault taken, the instruction pointer not advanced. -/
def State.unreadableOperand (s : State) (addr : Word) : State :=
  { s with
    status := .faulted
    faultRecord := some { kind := .boundsFault addr, opcodeAddr := s.ip } }

/-- R84, R155, R156: the boundary of the next instruction to complete times out: the environment's
draw is true there (log 4), or that instruction spends the step budget. -/
abbrev State.TimesOut (s : State) : Prop :=
  s.timeoutAfter = 0 ∨ ∃ n, s.cfg.stepBudget = some n ∧ n ≤ s.icount + 1

/-- R29, R30: the run has ended by an explicit halt, an unknown opcode or a timeout
("program ended"). -/
abbrev State.Ended (s : State) : Prop := s.status = .halted

/-- R31: the run has ended in a fault ("program crashed the VM"). -/
abbrev State.Crashed (s : State) : Prop := s.status = .faulted

/-- R140, I6: some byte of physical memory is 0x00, so that every `out` completes. -/
abbrev State.HasZeroByte (s : State) : Prop := ∃ j, j < s.cfg.memSize ∧ s.mem.read j = 0

/-- R156: the step budget is kept: at most n instructions have completed, and fewer than n while the
engine may still run one. -/
def State.WithinBudget (s : State) : Prop :=
  ∀ n, s.cfg.stepBudget = some n →
    s.icount ≤ n ∧ (s.status = .ready ∨ s.status = .running → s.icount < n)

/-- R78, R159: Run, started in `s`, returns with the host observing `o`. -/
def State.RunReturns (s : State) (o : Observation) : Prop :=
  ∃ n t, Sys2Proof.core.run n s = .next t ∧ (t.Ended ∨ t.Crashed) ∧ t.observe = o

end Sys2Proof.Machine
end

