-- ==== Sys2Proof/Certificates/Slice0/Obligations.lean ====
section
/-! DEFINITION. The statements for the provers. Each says which rules of spec/ it formalises.
`Wf` (Sys2Proof/Safety.lean) is the invariant of the model that rules out states no construction
makes; that it holds after construction and is kept by every step are statements of their own. -/

open Sys2Proof Sys2Proof.Machine

/-! ### Value types and the word ALU -/

/-- R21: a Word is the integer modulo 65536, and is put together again from its two bytes. -/
def Obligations.WordReconstructsFromItsBytes : Prop :=
  ∀ v : Int,
    ((w16 v).toNat : Int) = v % 65536 ∧
    wordOf (hiByte (w16 v)) (loByte (w16 v)) = w16 v ∧
    (hiByte (w16 v)).toNat = (w16 v).toNat / 256 ∧
    (loByte (w16 v)).toNat = (w16 v).toNat % 256

/-- R20: a Byte is the integer modulo 256. -/
def Obligations.ByteConstructionTruncates : Prop :=
  ∀ v : Int, ((b8 v).toNat : Int) = v % 256

/-- R22: Word addition and subtraction are integer addition and subtraction, re-truncated. -/
def Obligations.WordAluWraps : Prop :=
  ∀ (a : Word) (n : Nat), addW a n = w16 (a.toNat + n) ∧ subW a n = w16 (a.toNat - n)

/-! ### Registers and memory -/

/-- R23 to R25: every register can be written and read back, and a write leaves the others alone;
ip, sp and bp are registers 0, 1 and 2. -/
def Obligations.RegisterFileReadsWhatWasWritten : Prop :=
  ∀ (s : State) (i j : Nat) (v : Word), s.Wf → i < s.cfg.nreg →
    (s.setReg i v).getReg j = (if j = i then v else s.getReg j) ∧
    (s.setReg 0 v).ip = v ∧ (s.setReg 1 v).sp = v ∧ (s.setReg 2 v).bp = v

/-- R42, R44: byte reads and byte writes never fault and reduce the address modulo MEMSIZE. -/
def Obligations.ByteAccessWrapsModuloMemsize : Prop :=
  ∀ (s : State) (a : Word) (v : Byte), s.Wf →
    s.readByte a = s.mem.read (a.toNat % s.cfg.memSize) ∧
    s.writeByte a v = { s with mem := (s.writeByte a v).mem } ∧
    ∀ j, (s.writeByte a v).mem.read j =
      if j = a.toNat % s.cfg.memSize then v else s.mem.read j

/-- R43: a word read is big-endian and faults exactly when `a + 1 >= MEMSIZE`, without a wrap. -/
def Obligations.WordReadFaultsAtTheTop : Prop :=
  ∀ (s : State) (a : Word), s.Wf →
    (s.cfg.memSize ≤ a.toNat + 1 → s.readWord a = none) ∧
    (a.toNat + 1 < s.cfg.memSize →
      s.readWord a = some (wordOf (s.mem.read a.toNat) (s.mem.read (a.toNat + 1))))

/-- R45, R46: a word write never faults, puts the high byte at `a mod MEMSIZE` and the low byte at
`(a + 1) mod MEMSIZE`, is read back where it can be read, and at `MEMSIZE - 1` wraps to M[0]. -/
def Obligations.WordWriteIsBigEndianAndWraps : Prop :=
  ∀ (s : State) (a w : Word), s.Wf →
    s.writeWord a w = { s with mem := (s.writeWord a w).mem } ∧
    (s.writeWord a w).mem.read (a.toNat % s.cfg.memSize) = hiByte w ∧
    (s.writeWord a w).mem.read ((a.toNat + 1) % s.cfg.memSize) = loByte w ∧
    (∀ j, j ≠ a.toNat % s.cfg.memSize → j ≠ (a.toNat + 1) % s.cfg.memSize →
      (s.writeWord a w).mem.read j = s.mem.read j) ∧
    (a.toNat + 1 < s.cfg.memSize → (s.writeWord a w).readWord a = some w) ∧
    (s.writeWord a w).readByte a = hiByte w ∧
    (a.toNat + 1 < 65536 → (s.writeWord a w).readByte (addW a 1) = loByte w) ∧
    (a.toNat + 1 = s.cfg.memSize →
      (s.writeWord a w).mem.read 0 = loByte w ∧ (s.writeWord a w).readWord a = none)

/-! ### Encoding -/

/-- R64, R65: decoding the bytes of any instruction gives it back, in both operand orders of
`write_byte` and whatever bytes follow. -/
def Obligations.DecodeOfEncodeIsTheInstruction : Prop :=
  ∀ (order : WbOrder) (i : Instr) (rest : List Byte),
    decode order (encode order i ++ rest) = .ok (i, rest)

/-- R64, R65, R69: bytes that decode are the bytes of the instruction they decode to, so no byte
value has two readings. -/
def Obligations.EncodeOfDecodeIsTheBytes : Prop :=
  ∀ (order : WbOrder) (bytes rest : List Byte) (i : Instr),
    decode order bytes = .ok (i, rest) → bytes = encode order i ++ rest

/-- R66, R70, R72: the decoder is total. An opcode byte is unknown exactly when it is 0x01, 0x02,
0x0C to 0x8F or 0x91 to 0xFF; any other decodes, with the length its row gives, whatever four bytes
follow. -/
def Obligations.DecoderIsTotalOnOpcodes : Prop :=
  ∀ (order : WbOrder) (op b1 b2 b3 b4 : Byte),
    let unknown := op = 0x01 ∨ op = 0x02 ∨ (0x0C ≤ op.toNat ∧ op.toNat ≤ 0x8F) ∨ 0x91 ≤ op.toNat
    (unknown → decode order [op, b1, b2, b3, b4] = .error (.unknownOpcode op)) ∧
    (¬ unknown → ∃ i, decode order [op, b1, b2, b3, b4] =
        .ok (i, [op, b1, b2, b3, b4].drop i.opcode.length) ∧
      i.opcode.byte = op ∧ 1 ≤ i.opcode.length ∧ i.opcode.length ≤ 5)

/-- R62 to R65: words written out from the spec's byte layouts decode to the instructions they stand
for. -/
def Obligations.WrittenOutWordsDecode : Prop :=
  decode .byteFirst [0x08, 0x00, 0x41, 0x03] = .ok (.mov 0x0041 3, []) ∧
  decode .byteFirst [0x04, 0x12, 0x34, 0x01, 0x00] = .ok (.writeWord 0x1234 0x0100, []) ∧
  decode .byteFirst [0x05, 0x99, 0x00, 0x42] = .ok (.writeByte 0x99 0x0042, []) ∧
  decode .wordFirst [0x05, 0x00, 0x42, 0x99] = .ok (.writeByte 0x99 0x0042, []) ∧
  decode .byteFirst [0x03, 0x01, 0x00, 0x90] = .ok (.out 0x0100, [0x90]) ∧
  decode .byteFirst [0x09, 0x03] = .ok (.call 3, []) ∧
  decodeTableWord 32 0x03410008 = some (.mov 0x0041 3)

/-! ### The instruction cycle -/

/-- R80 to R85: when the bytes at the instruction pointer decode to an instruction and its operand
words can be read, a step is that instruction's meaning at the Running state, followed by the
boundary where the handler has completed. -/
def Obligations.StepRunsTheDecodedInstruction : Prop :=
  ∀ (s : State) (i : Instr) (rest : List Byte), s.Wf → s.Fetches →
    decode s.cfg.wbOrder s.instrBytes = .ok (i, rest) → s.OperandsReadable i.opcode →
    step s = finish (exec i s.startRun) ∧
    ∀ t, exec i s.startRun = .next t →
      step s = .next (if t.status ≠ .faulted ∧ t.outScan = none then t.boundary else t)

/-- R81, R152, R154, R158: an operand word that cannot be read raises BoundsFault at the first such
word in stream order; the instruction changes nothing, and its pointer is not advanced. -/
def Obligations.UnreadableOperandWordFaultsInDecode : Prop :=
  ∀ (s : State) (o : Opcode) (k : Nat), s.Wf → s.Fetches →
    opcodeOf (s.readByte s.ip) = some o →
    (o.wordOffsets s.cfg.wbOrder).find?
      (fun k => decide (s.cfg.memSize ≤ (addW s.ip k).toNat + 1)) = some k →
    step s = .next (s.unreadableOperand (addW s.ip k))

/-- R66, R151: an opcode byte outside the table appends its diagnostic and halts with reason
UnknownOpcode; the pointer is not advanced and no boundary follows. -/
def Obligations.UnknownOpcodeHalts : Prop :=
  ∀ s : State, s.Wf → s.Fetches →
    (let op := s.readByte s.ip
     op = 0x01 ∨ op = 0x02 ∨ (0x0C ≤ op.toNat ∧ op.toNat ≤ 0x8F) ∨ 0x91 ≤ op.toNat) →
    step s = .next { s with
      output := s.output ++ [.diag (s.readByte s.ip) s.ip]
      halted := true
      status := .halted
      haltReason := some .unknownOpcode }

/-- R84, R155, R156, R158: the boundary. A handler that completes counts, and then the engine halts
with reason Timeout if it is still Running and the draw is true or the budget is spent; an explicit
halt keeps its reason; a fault or an uncompleted `out` is followed by no boundary. The count of false
draws and `outScan` are the model's own fields (log 3, 4, 5). -/
def Obligations.BoundaryCountsAndTimesOut : Prop :=
  ∀ (s t : State) (i : Instr), s.Wf → s.Fetches → s.fetch = .instr i →
    exec i s.startRun = .next t →
    (t.status = .running → t.outScan = none → s.TimesOut →
      step s = .next { t with
        icount := s.icount + 1, timeoutAfter := s.timeoutAfter - 1
        halted := true, status := .halted, haltReason := some .timeout }) ∧
    (t.status = .running → t.outScan = none → ¬ s.TimesOut →
      step s = .next { t with
        icount := s.icount + 1, timeoutAfter := s.timeoutAfter - 1 }) ∧
    (t.status = .halted →
      t.haltReason = some .explicit ∧
      step s = .next { t with
        icount := s.icount + 1, timeoutAfter := s.timeoutAfter - 1 }) ∧
    (t.status = .faulted → step s = .next t) ∧
    (t.outScan ≠ none → step s = .next t)

/-- R30, R78: in Halted and Faulted nothing ever changes. -/
def Obligations.TerminalStatusesDoNothing : Prop :=
  ∀ (s : State) (n : Nat), s.Wf → s.Ended ∨ s.Crashed → Sys2Proof.core.run n s = .next s

/-- R78, D28: Run called on a halted or faulted block returns at once, with the state observed as it
is. -/
def Obligations.RunOnEndedBlockReturnsAtOnce : Prop :=
  ∀ (s : State) (o : Observation), s.Wf → s.Ended ∨ s.Crashed →
    (s.RunReturns o ↔ o = s.observe)

/-- R36, R159: what the host observes when Run returns does not depend on how many steps are made. -/
def Obligations.RunReturnsOneObservation : Prop :=
  ∀ (s : State) (o p : Observation), s.RunReturns o → s.RunReturns p → o = p

/-- R29: the halted flag is never cleared, and the first halt reason recorded is kept. -/
def Obligations.HaltedFlagIsNeverCleared : Prop :=
  ∀ s t : State, step s = .next t →
    (s.halted = true → t.halted = true) ∧
    ∀ r, s.haltReason = some r → t.haltReason = some r

/-- R30: the transitions of the status. -/
def Obligations.StatusFollowsTheStateMachine : Prop :=
  ∀ s t : State, s.Wf → step s = .next t →
    t.status ≠ .ready ∧
    (s.status = .halted → t.status = .halted) ∧ (s.status = .faulted → t.status = .faulted) ∧
    (t.halted = true ↔ t.status = .halted)

/-- With parameters in range a step always has a next state: no fault and no refusal of the model
stands for an instruction. This is the model's choice: the spec's own faults are next states with
status Faulted (log 8), and so is each pass of an `out` that diverges, where R83, R85 and R140 let the
step never complete (log 5). -/
def Obligations.StepAlwaysHasANextState : Prop :=
  ∀ s : State, s.cfg.wf = true → ∃ t, step s = .next t

/-- R150, R157, R158: how a step that fetches can end: still Running (an `out` that diverges too,
log 5), or in one of the five ways, each with its cause, its flag and its record. When a boundary
times out is told by the model's count of false draws (log 4). -/
def Obligations.ExecutionEndsInOneOfFiveWays : Prop :=
  ∀ s t : State, s.Wf → s.Fetches → step s = .next t →
    t.status = .running ∨
    (t.status = .halted ∧ t.halted = true ∧ t.haltReason = some .explicit ∧
      s.fetch = .instr .halt) ∨
    (t.status = .halted ∧ t.halted = true ∧ t.haltReason = some .unknownOpcode ∧
      ∃ op, s.fetch = .unknown op) ∨
    (t.status = .halted ∧ t.halted = true ∧ t.haltReason = some .timeout ∧ s.TimesOut) ∨
    (t.status = .faulted ∧ t.halted = false ∧ ∃ a, s.cfg.memSize ≤ a.toNat + 1 ∧
      t.faultRecord = some { kind := .boundsFault a, opcodeAddr := s.ip }) ∨
    (t.status = .faulted ∧ t.halted = false ∧ ∃ r, s.cfg.nreg ≤ r.toNat ∧
      t.faultRecord = some { kind := .illegalRegister r, opcodeAddr := s.ip })

/-- R152, R153: which handlers raise which fault; a handler that raises one has written neither
memory nor the output buffer. -/
def Obligations.HandlersRaiseOnlyTheirFaults : Prop :=
  ∀ (i : Instr) (s t : State), s.status ≠ .faulted → exec i s = .next t → t.status = .faulted →
    t.mem = s.mem ∧ t.output = s.output ∧
    ((∃ r, (i = .push r ∨ i = .pop r ∨ i = .call r ∨ ∃ v, i = .mov v r) ∧
        s.cfg.nreg ≤ r.toNat ∧
        t.faultRecord = some { kind := .illegalRegister r, opcodeAddr := s.ip }) ∨
      ((i = .ret ∨ ∃ r, i = .pop r) ∧ ∃ a, s.cfg.memSize ≤ a.toNat + 1 ∧
        t.faultRecord = some { kind := .boundsFault a, opcodeAddr := s.ip }))

/-! ### Invariants and whole-machine rules -/

/-- R23, R29, R30, R31, R41: every step keeps the invariant. -/
def Obligations.StepKeepsTheInvariant : Prop :=
  ∀ s t : State, s.Wf → step s = .next t → t.Wf

/-- R35, R180, R181: the invariant holds at reset and after every construction, with or without an
initial program, whatever the parameters and the environment's draws. -/
def Obligations.ConstructionEstablishesTheInvariant : Prop :=
  State.reset.Wf ∧ (∀ c : Config, c.wf = true → (State.initial c).Wf) ∧
  ∀ (c : Config) (timeoutAfter : Nat) (program : Option (List Byte)) (t : State),
    construct c timeoutAfter program = .next t → t.Wf

/-- R35: what the spec states of reset. Register 3, `timeoutAfter` and `outScan` are left
out: they are the model's choice (log 2, 4, 5). -/
def Obligations.ResetLeavesTheSpecifiedValues : Prop :=
  State.reset.ip = 0x0000 ∧ State.reset.sp = 0x7FFF ∧ State.reset.bp = 0x7FFF ∧
  State.reset.regs.length = 4 ∧ State.reset.cfg.memSize = 32768 ∧
  (∀ j, State.reset.mem.read j = 0) ∧ State.reset.halted = false ∧
  State.reset.status = .ready ∧ State.reset.haltReason = none ∧
  State.reset.faultRecord = none ∧ State.reset.output = [] ∧ State.reset.segments = [] ∧
  State.reset.icount = 0

/-- R35, R180, R181: Construct, for all parameters in range (every GP_INIT, every TOS); an initial
program is loaded as by LoadProgram at 0x0000. The count of false draws of `timeout` that Construct is
given, `outScan` and the opaque segment name are the model's (log 4, 5, 14). -/
def Obligations.ConstructMakesTheInitialState : Prop :=
  ∀ (c : Config) (timeoutAfter : Nat) (bytes : List Byte),
    c.wf = true → ∃ s, construct c timeoutAfter none = .next s ∧
      s.cfg = c ∧ s.timeoutAfter = timeoutAfter ∧ s.outScan = none ∧ s.regs.length = c.nreg ∧
      s.ip = 0x0000 ∧ s.sp = c.tos ∧ s.bp = c.tos ∧
      (∀ r, 3 ≤ r → r < c.nreg → s.getReg r = c.gpInit) ∧ (∀ j, s.mem.read j = 0) ∧
      s.halted = false ∧ s.status = .ready ∧ s.haltReason = none ∧ s.faultRecord = none ∧
      s.output = [] ∧ s.segments = [] ∧ s.icount = 0 ∧
      construct c timeoutAfter (some bytes) =
        s.loadProgram 0x0000 bytes Config.initialSegmentName

/-- With parameters out of range Construct is refused, a choice of the model (log 10): the spec
describes no such machine (R7, R8, R13). -/
def Obligations.ConstructRefusesParametersOutOfRange : Prop :=
  ∀ (c : Config) (timeoutAfter : Nat) (program : Option (List Byte)),
    c.wf = false → construct c timeoutAfter program = .refused .parametersOutOfRange

/-- R156: the step budget is never overrun. -/
def Obligations.StepKeepsWithinTheBudget : Prop :=
  ∀ s t : State, s.Wf → s.WithinBudget → step s = .next t → t.WithinBudget

/-- R13, R156: construction starts within the budget, whatever the budget, with or without an initial
program. -/
def Obligations.ConstructionIsWithinTheBudget : Prop :=
  (∀ c : Config, c.wf = true → (State.initial c).WithinBudget) ∧
  ∀ (c : Config) (timeoutAfter : Nat) (program : Option (List Byte)) (t : State),
    construct c timeoutAfter program = .next t → t.WithinBudget

/-- R37, R155: the environment's draws of `timeout`. From every state the draw is eventually true,
and every sequence of draws that is eventually true is a state's up to its first true one, which ends
the run. That State holds the number of boundaries before it is the model's form of the input
(log 4). -/
def Obligations.TimeoutDrawsAreFair : Prop :=
  (∀ s : State, ∃ k, s.timeoutAt k = true) ∧
  ∀ (s : State) (draw : Nat → Bool), (∃ k, draw k = true) →
    ∃ n, draw n = true ∧
      ∀ k, k ≤ n → ({ s with timeoutAfter := n } : State).timeoutAt k = draw k

/-- R155: a true draw ends the run, and one comes, so that no run goes on for ever but in an `out` that
diverges. Within `timeoutAfter + 1` steps the
block is Halted or Faulted, or an `out` has not completed; so every loop ends, from reset too. The
number of boundaries left is the model's form of the fair input (log 4); that an `out` that diverges
answers next states in which `outScan` is not none is the model's choice (log 5). -/
def Obligations.ATrueTimeoutDrawEndsTheRun : Prop :=
  ∀ s : State, s.Wf → s.Fetches →
    ∃ n t, n ≤ s.timeoutAfter + 1 ∧ Sys2Proof.core.run n s = .next t ∧
      (t.Ended ∨ t.Crashed ∨ t.outScan ≠ none)

/-- R28, R32: what an instruction does depends on the parameters, the registers and memory alone. In
two states that agree in these it leaves the same registers and memory and appends the same entries;
the halted flag, the status, the fault record and `outScan` (log 5) are left alone in both or become
the same in both. The halt reason depends on the recorded one as well, which is kept (R29). No
instruction changes hidden state. -/
def Obligations.InstructionsIgnoreControlState : Prop :=
  ∀ (i : Instr) (s s' t : State), s'.cfg = s.cfg → s'.regs = s.regs → s'.mem = s.mem →
    exec i s = .next t →
    (∃ t', exec i s' = .next t' ∧ t'.regs = t.regs ∧ t'.mem = t.mem ∧
      (∃ es, t.output = s.output ++ es ∧ t'.output = s'.output ++ es) ∧
      SameChange s.halted s'.halted t.halted t'.halted ∧
      SameChange s.status s'.status t.status t'.status ∧
      SameChange s.faultRecord s'.faultRecord t.faultRecord t'.faultRecord ∧
      SameChange s.outScan s'.outScan t.outScan t'.outScan ∧
      (s'.haltReason = s.haltReason → t'.haltReason = t.haltReason)) ∧
    t.cfg = s.cfg ∧ t.segments = s.segments ∧ t.icount = s.icount ∧
    t.timeoutAfter = s.timeoutAfter

/-- R34, R51: the segment list is never consulted by the engine and never changed by it. -/
def Obligations.SegmentsAreNeverConsulted : Prop :=
  ∀ (s t : State) (segs : List Segment), step s = .next t →
    t.segments = s.segments ∧
    step { s with segments := segs } = .next { t with segments := segs }

/-- R33: the output buffer is append-only, holds no zero Char, and is appended to only by `out` and
by an unknown opcode. -/
def Obligations.OutputIsAppendOnly : Prop :=
  ∀ s t : State, step s = .next t → ∃ es, t.output = s.output ++ es ∧
    (∀ b, OutEntry.char b ∈ es → b ≠ 0) ∧
    (es ≠ [] → s.outScan ≠ none ∨ (∃ a, s.fetch = .instr (.out a)) ∨
      ∃ op, s.fetch = .unknown op)

/-- R52, R54: the next fetch reads memory as the handler left it, whatever the instruction stored
(`write_word`, `push`, `call` and `input` too). -/
def Obligations.NextFetchReadsWhatTheHandlerLeft : Prop :=
  ∀ (i : Instr) (s u t : State), s.Wf → s.Fetches → s.fetch = .instr i →
    exec i s.startRun = .next u → step s = .next t → t.Fetches →
    t.ip = u.ip ∧ t.readByte t.ip = u.mem.read (s.phys u.ip.toNat) ∧
    (opcodeOf (u.mem.read (s.phys u.ip.toNat)) = none →
      t.fetch = .unknown (u.mem.read (s.phys u.ip.toNat))) ∧
    ∀ j rest, decode s.cfg.wbOrder ((List.range maxLength).map fun k =>
        u.mem.read (s.phys (addW u.ip k).toNat)) = .ok (j, rest) →
      t.OperandsReadable j.opcode → t.fetch = .instr j

/-- R54, R111: a byte stored by `write_byte` over the next opcode is seen by the very next fetch; a
stored 0x00 is `halt`, and a stored byte outside the table is an unknown opcode. -/
def Obligations.NextFetchSeesTheStore : Prop :=
  ∀ (s t : State) (v : Byte) (a : Word), s.Wf → s.Fetches →
    s.fetch = .instr (.writeByte v a) → step s = .next t →
    s.phys t.ip.toNat = s.phys a.toNat →
    t.readByte t.ip = v ∧ (v = 0x00 → t.fetch = .instr .halt) ∧
    (opcodeOf v = none → t.fetch = .unknown v)

/-! ### The instructions

Each statement gives the encoding, the next state for every operand, and the frame: where it says
`t = { s with … }`, every field not named there is unchanged. -/

/-- R100. -/
def Obligations.HaltStopsTheEngine : Prop :=
  ∀ s : State, s.Wf →
    (∀ order, encode order .halt = [0x00]) ∧
    ∃ t, exec .halt s = .next t ∧
      t = { s with regs := t.regs, halted := true, status := .halted,
                   haltReason := t.haltReason } ∧
      t.ip = addW s.ip 1 ∧ s.SameRegsExcept t [0] ∧
      (s.haltReason = none → t.haltReason = some .explicit) ∧
      ∀ r, s.haltReason = some r → t.haltReason = some r

/-- R101. -/
def Obligations.NoopOnlyAdvances : Prop :=
  ∀ s : State, s.Wf →
    (∀ order, encode order .noop = [0x90]) ∧
    ∃ t, exec .noop s = .next t ∧ t = { s with regs := t.regs } ∧
      t.ip = addW s.ip 1 ∧ s.SameRegsExcept t [0]

/-- R110. The store never faults; an operand word that cannot be read faults in decode, the first
such word in stream order. -/
def Obligations.WriteWordStoresTheWord : Prop :=
  ∀ (s : State) (v a : Word), s.Wf →
    (∀ order, encode order (.writeWord v a) = [0x04, hiByte v, loByte v, hiByte a, loByte a]) ∧
    (∃ t, exec (.writeWord v a) s = .next t ∧ t = { s with regs := t.regs, mem := t.mem } ∧
      t.ip = addW s.ip 5 ∧ s.SameRegsExcept t [0] ∧
      t.mem.read (s.phys a.toNat) = hiByte v ∧ t.mem.read (s.phys (a.toNat + 1)) = loByte v ∧
      ∀ j, j ≠ s.phys a.toNat → j ≠ s.phys (a.toNat + 1) → t.mem.read j = s.mem.read j) ∧
    (s.Fetches → s.readByte s.ip = 0x04 →
      (s.cfg.memSize ≤ (addW s.ip 1).toNat + 1 → step s = .next (s.unreadableOperand (addW s.ip 1))) ∧
      ((addW s.ip 1).toNat + 1 < s.cfg.memSize → s.cfg.memSize ≤ (addW s.ip 3).toNat + 1 →
        step s = .next (s.unreadableOperand (addW s.ip 3))))

/-- R111. The store never faults; an address word that cannot be read faults in decode. -/
def Obligations.WriteByteStoresTheByte : Prop :=
  ∀ (s : State) (v : Byte) (a : Word), s.Wf →
    encode .byteFirst (.writeByte v a) = [0x05, v, hiByte a, loByte a] ∧
    encode .wordFirst (.writeByte v a) = [0x05, hiByte a, loByte a, v] ∧
    (∃ t, exec (.writeByte v a) s = .next t ∧ t = { s with regs := t.regs, mem := t.mem } ∧
      t.ip = addW s.ip 4 ∧ s.SameRegsExcept t [0] ∧
      t.mem.read (s.phys a.toNat) = v ∧
      ∀ j, j ≠ s.phys a.toNat → t.mem.read j = s.mem.read j) ∧
    (let w := addW s.ip (if s.cfg.wbOrder = .byteFirst then 2 else 1)
     s.Fetches → s.readByte s.ip = 0x05 → s.cfg.memSize ≤ w.toNat + 1 →
       step s = .next (s.unreadableOperand w))

/-- R120, R153. The register is read before the decrement, and register 0 is already advanced. -/
def Obligations.PushStoresTheRegisterBelowTheStack : Prop :=
  ∀ (s : State) (n : RegIndex), s.Wf →
    (∀ order, encode order (.push n) = [0x06, n]) ∧
    (n.toNat < s.cfg.nreg →
      let v := if n = 0 then addW s.ip 2 else s.getReg n.toNat
      let a := subW s.sp 2
      ∃ t, exec (.push n) s = .next t ∧ t = { s with regs := t.regs, mem := t.mem } ∧
        t.ip = addW s.ip 2 ∧ t.sp = a ∧ s.SameRegsExcept t [0, 1] ∧
        t.mem.read (s.phys a.toNat) = hiByte v ∧ t.mem.read (s.phys (a.toNat + 1)) = loByte v ∧
        ∀ j, j ≠ s.phys a.toNat → j ≠ s.phys (a.toNat + 1) → t.mem.read j = s.mem.read j) ∧
    (s.cfg.nreg ≤ n.toNat → exec (.push n) s = .next (s.illegalRegister 2 n))

/-- R121, R153, R154. The register is written before the increment, so `pop r1` leaves the popped
value plus 2; the index check comes before the read. -/
def Obligations.PopLoadsTheRegisterFromTheStack : Prop :=
  ∀ (s : State) (n : RegIndex), s.Wf →
    (∀ order, encode order (.pop n) = [0x07, n]) ∧
    (n.toNat < s.cfg.nreg → s.sp.toNat + 1 < s.cfg.memSize →
      ∃ t, exec (.pop n) s = .next t ∧ t = { s with regs := t.regs } ∧
        s.SameRegsExcept t [0, 1, n.toNat] ∧
        (n = 1 → t.sp = addW (s.wordAt s.sp.toNat) 2) ∧
        (n ≠ 1 → t.sp = addW s.sp 2 ∧ t.getReg n.toNat = s.wordAt s.sp.toNat) ∧
        (n ≠ 0 → t.ip = addW s.ip 2)) ∧
    (n.toNat < s.cfg.nreg → s.cfg.memSize ≤ s.sp.toNat + 1 →
      exec (.pop n) s = .next { s with
        regs := s.regs.set 0 (addW s.ip 2)
        status := .faulted
        faultRecord := some { kind := .boundsFault s.sp, opcodeAddr := s.ip } }) ∧
    (s.cfg.nreg ≤ n.toNat → exec (.pop n) s = .next (s.illegalRegister 2 n))

/-- R122, R153. Register 0 as destination is an absolute jump (R76); a value word that cannot be read
faults in decode. -/
def Obligations.MovLoadsTheImmediate : Prop :=
  ∀ (s : State) (v : Word) (n : RegIndex), s.Wf →
    (∀ order, encode order (.mov v n) = [0x08, hiByte v, loByte v, n]) ∧
    (n.toNat < s.cfg.nreg →
      ∃ t, exec (.mov v n) s = .next t ∧ t = { s with regs := t.regs } ∧
        t.getReg n.toNat = v ∧ (n ≠ 0 → t.ip = addW s.ip 4) ∧
        s.SameRegsExcept t [0, n.toNat]) ∧
    (s.cfg.nreg ≤ n.toNat → exec (.mov v n) s = .next (s.illegalRegister 4 n)) ∧
    (s.Fetches → s.readByte s.ip = 0x08 → s.cfg.memSize ≤ (addW s.ip 1).toNat + 1 →
      step s = .next (s.unreadableOperand (addW s.ip 1)))

/-- R130, R132, R153. The frame holds the base pointer below the return address; the target is read
last, so `call r0` continues after itself and `call r1` and `call r2` jump to the new frame. The
pushes are two word writes, the base pointer's second. -/
def Obligations.CallPushesTheFrameAndJumps : Prop :=
  ∀ (s : State) (n : RegIndex), s.Wf →
    (∀ order, encode order (.call n) = [0x09, n]) ∧
    (n.toNat < s.cfg.nreg →
      let r := subW s.sp 2
      let b := subW s.sp 4
      ∃ t, exec (.call n) s = .next t ∧ t = { s with regs := t.regs, mem := t.mem } ∧
        t.sp = b ∧ t.bp = b ∧
        t.ip = (if n = 0 then addW s.ip 2 else if n = 1 ∨ n = 2 then b else s.getReg n.toNat) ∧
        s.SameRegsExcept t [0, 1, 2] ∧
        ∀ j, t.mem.read j =
          if j = s.phys (b.toNat + 1) then loByte s.bp
          else if j = s.phys b.toNat then hiByte s.bp
          else if j = s.phys (r.toNat + 1) then loByte (addW s.ip 2)
          else if j = s.phys r.toNat then hiByte (addW s.ip 2)
          else s.mem.read j) ∧
    (s.cfg.nreg ≤ n.toNat → exec (.call n) s = .next (s.illegalRegister 2 n))

/-- R131, R154. The final stack pointer is the base pointer just popped; a fault on the second pop
leaves the first pop's effects. -/
def Obligations.RetPopsTheFrame : Prop :=
  ∀ s : State, s.Wf →
    (∀ order, encode order .ret = [0x0A]) ∧
    (s.cfg.memSize ≤ s.sp.toNat + 1 →
      exec .ret s = .next { s with
        regs := s.regs.set 0 (addW s.ip 1)
        status := .faulted
        faultRecord := some { kind := .boundsFault s.sp, opcodeAddr := s.ip } }) ∧
    (s.sp.toNat + 1 < s.cfg.memSize → s.cfg.memSize ≤ (addW s.sp 2).toNat + 1 →
      ∃ t, exec .ret s = .next t ∧
        t = { s with
          regs := t.regs
          status := .faulted
          faultRecord := some { kind := .boundsFault (addW s.sp 2), opcodeAddr := s.ip } } ∧
        t.ip = addW s.ip 1 ∧ t.bp = s.wordAt s.sp.toNat ∧ t.sp = addW s.sp 2 ∧
        s.SameRegsExcept t [0, 1, 2]) ∧
    (s.sp.toNat + 1 < s.cfg.memSize → (addW s.sp 2).toNat + 1 < s.cfg.memSize →
      ∃ t, exec .ret s = .next t ∧ t = { s with regs := t.regs } ∧
        t.bp = s.wordAt s.sp.toNat ∧ t.ip = s.wordAt (addW s.sp 2).toNat ∧
        t.sp = s.wordAt s.sp.toNat ∧ s.SameRegsExcept t [0, 1, 2])

/-- R140. With k bytes before the first zero byte from A, exactly those k are appended and the
instruction completes. Where none of the 65536 addresses reads zero it does not complete (`diverge`);
that one model step then appends one pass over the addresses is the model's choice (log 5). -/
def Obligations.OutAppendsTheString : Prop :=
  ∀ (s : State) (a : Word), s.Wf →
    (∀ order, encode order (.out a) = [0x03, hiByte a, loByte a]) ∧
    (∀ k, k < 65536 → s.readByte (addW a k) = 0 → (∀ m, m < k → s.readByte (addW a m) ≠ 0) →
      exec (.out a) s = .next { s with
        regs := s.regs.set 0 (addW s.ip 3)
        output := s.output ++ (List.range k).map fun m => .char (s.readByte (addW a m))
        outScan := none }) ∧
    ((∀ m, m < 65536 → s.readByte (addW a m) ≠ 0) →
      exec (.out a) s = .next { s with
        regs := s.regs.set 0 (addW s.ip 3)
        output := s.output ++ (List.range 65536).map fun m => .char (s.readByte (addW a m))
        outScan := some a }) ∧
    (s.Fetches → s.readByte s.ip = 0x03 → s.cfg.memSize ≤ (addW s.ip 1).toNat + 1 →
      step s = .next (s.unreadableOperand (addW s.ip 1)))

/-- R140: `out` completes exactly when some byte of memory is zero. -/
def Obligations.OutCompletesIffSomeByteIsZero : Prop :=
  ∀ (s t : State) (a : Word), s.Wf → exec (.out a) s = .next t →
    (t.outScan = none ↔ s.HasZeroByte)

/-- R140: an `out` that completes appends at most 65535 entries, and at most MEMSIZE - 1 when
MEMSIZE divides 65536. -/
def Obligations.CompletedOutIsBounded : Prop :=
  ∀ (s t : State) (a : Word), s.Wf → exec (.out a) s = .next t → t.outScan = none →
    t.output.length ≤ s.output.length + 65535 ∧
    (65536 % s.cfg.memSize = 0 → t.output.length ≤ s.output.length + (s.cfg.memSize - 1))

/-- R140, R155: a diverging `out` never reaches a boundary: after any number of steps nothing but the
output buffer has changed, which grows without end, and no timeout is sampled. The 65536 entries of
each step are the model's granularity (log 5). -/
def Obligations.DivergingOutNeverReachesABoundary : Prop :=
  ∀ (s : State) (a : Word) (n : Nat), s.Wf → s.outScan = some a → ¬ s.HasZeroByte →
    ∃ t, Sys2Proof.core.run n s = .next t ∧ t = { s with output := t.output } ∧
      t.output.length = s.output.length + n * 65536

/-- R140: an uncompleted `out` means that no byte of memory is zero, and every step keeps it so
(an invariant of the model's own field, log 5). -/
def Obligations.UncompletedOutMeansNoZeroByte : Prop :=
  ∀ s t : State, s.Wf → (s.outScan ≠ none → ¬ s.HasZeroByte) → step s = .next t →
    (t.outScan ≠ none → ¬ t.HasZeroByte)

/-- R68, R141. `u i` is memory after the first i bytes of the copy: each byte is read from
`0x2000 +w i` just before it is written to `(sp -w 256) +w i`, in ascending order, with every
overlap and every wrap. The operand byte has no effect. -/
def Obligations.InputCopiesAscending : Prop :=
  ∀ (s : State) (x : Byte), s.Wf →
    (∀ order, encode order (.input x) = [0x0B, x]) ∧
    ∃ (t : State) (u : Nat → Nat → Byte),
      exec (.input x) s = .next t ∧ t = { s with regs := t.regs, mem := t.mem } ∧
      t.ip = addW s.ip 2 ∧ s.SameRegsExcept t [0] ∧
      (∀ j, u 0 j = s.mem.read j) ∧
      (∀ i, i < 260 → ∀ j, u (i + 1) j =
        if j = s.phys (addW (subW s.sp 256) i).toNat then u i (s.phys (addW 0x2000 i).toNat)
        else u i j) ∧
      ∀ j, t.mem.read j = u 260 j

/-- R141: where the destination lies inside memory and apart from the source block, the copy is
byte for byte, and every other byte of memory is unchanged. -/
def Obligations.InputCopiesTheBlockWhenApart : Prop :=
  ∀ (s : State) (x : Byte), s.Wf → 0x2104 ≤ s.cfg.memSize →
    256 ≤ s.sp.toNat → s.sp.toNat + 4 ≤ s.cfg.memSize →
    s.sp.toNat + 4 ≤ 0x2000 ∨ 0x2104 + 256 ≤ s.sp.toNat →
    ∃ t, exec (.input x) s = .next t ∧
      (∀ i, i < 260 → t.mem.read (s.sp.toNat - 256 + i) = s.mem.read (0x2000 + i)) ∧
      ∀ j, j < s.sp.toNat - 256 ∨ s.sp.toNat + 4 ≤ j → t.mem.read j = s.mem.read j

/-! ### The call/return convention -/

/-- R120, R121: a push followed by a pop into a register other than the stack pointer restores the
stack pointer and transfers the value, where the pushed word can be read back. -/
def Obligations.PushThenPopTransfersTheValue : Prop :=
  ∀ (s : State) (n m : RegIndex), s.Wf → n.toNat < s.cfg.nreg → m.toNat < s.cfg.nreg → m ≠ 1 →
    (subW s.sp 2).toNat + 1 < s.cfg.memSize →
    ∃ t u, exec (.push n) s = .next t ∧ exec (.pop m) t = .next u ∧ u.sp = s.sp ∧
      u.getReg m.toNat = (if n = 0 then addW s.ip 2 else s.getReg n.toNat)

/-- R133, R134: a `ret` made with the stack pointer and the four saved bytes as the call left them
returns to the instruction after the call, with the base pointer restored and the stack pointer
equal to it. -/
def Obligations.RetReturnsToTheCaller : Prop :=
  ∀ (s t u : State) (n : RegIndex), s.Wf → n.toNat < s.cfg.nreg → exec (.call n) s = .next t →
    u.Wf → u.cfg = s.cfg → u.sp = t.sp →
    (subW s.sp 4).toNat + 1 < s.cfg.memSize → (subW s.sp 2).toNat + 1 < s.cfg.memSize →
    (∀ j, j = (subW s.sp 4).toNat ∨ j = (subW s.sp 4).toNat + 1 ∨ j = (subW s.sp 2).toNat ∨
      j = (subW s.sp 2).toNat + 1 → u.mem.read j = t.mem.read j) →
    ∃ v, exec .ret u = .next v ∧ v.ip = addW s.ip 2 ∧ v.bp = s.bp ∧ v.sp = s.bp

/-- R130 to R132, R141: the stack smash. An `input` made right after a `call` overwrites the saved
base pointer and the saved instruction pointer with the last four bytes of the input block, and the
`ret` that follows goes where they say. -/
def Obligations.InputAfterCallHijacksTheReturn : Prop :=
  ∀ (s : State) (n : RegIndex) (x : Byte), s.Wf → n.toNat < s.cfg.nreg →
    0x2104 ≤ s.cfg.memSize → 260 ≤ s.sp.toNat → s.sp.toNat ≤ s.cfg.memSize →
    s.sp.toNat ≤ 0x2000 ∨ 0x2104 + 260 ≤ s.sp.toNat →
    ∃ t u v, exec (.call n) s = .next t ∧ exec (.input x) t = .next u ∧ exec .ret u = .next v ∧
      v.bp = s.wordAt 0x2100 ∧ v.ip = s.wordAt 0x2102 ∧ v.sp = s.wordAt 0x2100

/-! ### The loader -/

/-- R182, R183: LoadProgram before Run writes its block, each byte as `write_byte` does (the
last byte that falls on a physical byte stays), records the segment and sets the instruction
pointer; nothing else changes. -/
def Obligations.LoadProgramPlacesTheBlock : Prop :=
  ∀ (s : State) (a : Word) (bytes : List Byte) (name : String), s.Wf →
    s.status = .ready → ∃ t, s.loadProgram a bytes name = .next t ∧
      t = { s with
        mem := t.mem
        regs := t.regs
        segments := s.segments ++ [{ name := name, start := a, length := bytes.length }] } ∧
      t.ip = a ∧ s.SameRegsExcept t [0] ∧
      (∀ i, i < bytes.length →
        (∀ k, i < k → k < bytes.length →
          s.phys (addW a k).toNat ≠ s.phys (addW a i).toNat) →
        some (t.mem.read (s.phys (addW a i).toNat)) = bytes[i]?) ∧
      ∀ j, (∀ i, i < bytes.length → s.phys (addW a i).toNat ≠ j) →
        t.mem.read j = s.mem.read j

/-- R183, R184: LoadData likewise, with no register changed; at the zero address the block goes
to the sum of the lengths of all earlier segments, as a Word. -/
def Obligations.LoadDataPlacesTheBlock : Prop :=
  ∀ (s : State) (a : Word) (bytes : List Byte) (name : String), s.Wf →
    let start := if a = 0 then w16 ((s.segments.map Segment.length).sum : Nat) else a
    s.status = .ready → ∃ t, s.loadData a bytes name = .next t ∧
      t = { s with
        mem := t.mem
        segments := s.segments ++ [{ name := name, start := start, length := bytes.length }] } ∧
      (∀ i, i < bytes.length →
        (∀ k, i < k → k < bytes.length →
          s.phys (addW start k).toNat ≠ s.phys (addW start i).toNat) →
        some (t.mem.read (s.phys (addW start i).toNat)) = bytes[i]?) ∧
      ∀ j, (∀ i, i < bytes.length → s.phys (addW start i).toNat ≠ j) →
        t.mem.read j = s.mem.read j

/-- R186: after Run has started, LoadProgram and LoadData are refused. That the refusal is an outcome
of the loader's own, by this name, is the model's (log 16). -/
def Obligations.LoaderIsRefusedAfterRun : Prop :=
  ∀ (s : State) (a : Word) (bytes : List Byte) (name : String), s.status ≠ .ready →
    s.loadProgram a bytes name = .refused .loadAfterRun ∧
    s.loadData a bytes name = .refused .loadAfterRun

/-- R182 to R184: the loader keeps the invariant, so that a loaded block is one the other statements
speak of. -/
def Obligations.LoaderKeepsTheInvariant : Prop :=
  ∀ (s t : State) (a : Word) (bytes : List Byte) (name : String), s.Wf →
    s.loadProgram a bytes name = .next t ∨ s.loadData a bytes name = .next t →
    t.Wf ∧ t.status = .ready
end

