-- ==== Sys2Proof/Laws/Decode.lean ====
section
/-! SUPPORT. The small lemmas of byte order, the opcode table, and the encoder. -/

namespace Sys2Proof

theorem wordOf_toNat (hi lo : Byte) : (wordOf hi lo).toNat = 256 * hi.toNat + lo.toNat := by
  have h := Nat.two_pow_add_eq_or_of_lt lo.isLt hi.toNat
  rw [wordOf, BitVec.toNat_append, Nat.shiftLeft_eq, Nat.mul_comm, ← h]

theorem hiByte_toNat (w : Word) : (hiByte w).toNat = w.toNat / 256 := by
  have h := w.isLt
  simp only [hiByte, BitVec.extractLsb'_toNat, Nat.shiftRight_eq_div_pow]
  omega

theorem loByte_toNat (w : Word) : (loByte w).toNat = w.toNat % 256 := by
  simp [loByte, BitVec.extractLsb'_toNat]

@[simp] theorem hiByte_wordOf (hi lo : Byte) : hiByte (wordOf hi lo) = hi := by
  have := lo.isLt
  apply BitVec.eq_of_toNat_eq
  rw [hiByte_toNat, wordOf_toNat]
  omega

@[simp] theorem loByte_wordOf (hi lo : Byte) : loByte (wordOf hi lo) = lo := by
  have := lo.isLt
  apply BitVec.eq_of_toNat_eq
  rw [loByte_toNat, wordOf_toNat]
  omega

@[simp] theorem wordOf_bytes (w : Word) : wordOf (hiByte w) (loByte w) = w := by
  apply BitVec.eq_of_toNat_eq
  rw [wordOf_toNat, hiByte_toNat, loByte_toNat]
  omega

@[simp] theorem addW_toNat (a : Word) (n : Nat) : (addW a n).toNat = (a.toNat + n) % 65536 := by
  simp [addW]

@[simp] theorem subW_toNat (a : Word) (n : Nat) :
    (subW a n).toNat = (a.toNat + (65536 - n % 65536)) % 65536 := by
  simp [subW, BitVec.toNat_sub, Nat.add_comm]

@[simp] theorem addW_zero (a : Word) : addW a 0 = a := by simp [addW]

theorem addW_addW (a : Word) (m n : Nat) : addW (addW a m) n = addW a (m + n) := by
  simp only [addW, BitVec.ofNat_add]
  ac_rfl

/-- A row's byte names the row. -/
@[simp] theorem opcodeOf_byte (o : Opcode) : opcodeOf o.byte = some o := by
  cases o <;> rfl

/-- R64, R65: each row of the table stands under its instructions' first byte. -/
theorem opcodeTable_bytes : ∀ row ∈ opcodeTable, row.1 = row.2.byte := by decide

/-- Only a row's own byte names it. -/
theorem byte_of_opcodeOf {op : Byte} {o : Opcode} (h : opcodeOf op = some o) : op = o.byte := by
  obtain ⟨row, hf, rfl⟩ := Option.map_eq_some_iff.1 h
  have hop : row.1 = op := by simpa using List.find?_some hf
  exact hop.symm.trans (opcodeTable_bytes row (List.mem_of_find?_eq_some hf))

/-- R63: of the class-BW rows, those whose word comes first have their word field at offset 1. -/
theorem wordFirst_offsets (order : WbOrder) (o : Opcode) (f : Bool)
    (h : o.wordFirst order = some f) :
    o.sizeClass = .bw ∧ o.wordOffsets order = [if f then 1 else 2] := by
  cases o <;> cases order <;> simp_all [Opcode.wordFirst, Opcode.wordOffsets, Opcode.sizeClass]

/-- Reading a row's operands, whatever the readers, gives an instruction of that row. -/
theorem opcode_of_readOperands {ε : Type} {order : WbOrder} {byteAt : Nat → Except ε Byte}
    {wordAt : Nat → Except ε Word} {o : Opcode} {i : Instr}
    (h : o.readOperands order byteAt wordAt = .ok i) : i.opcode = o := by
  cases o <;> cases order <;> simp only [Opcode.readOperands, bind, Except.bind, pure, Except.pure] at h <;>
    (repeat' split at h) <;> simp_all <;> subst h <;> rfl

end Sys2Proof
end

