-- ==== Sys2Proof/Laws/Memory.lean ====
section
/-! SUPPORT. The laws of physical memory: a write is read back, leaves every other byte alone, and
keeps the canonical form. -/

namespace Sys2Proof.Machine

theorem Memory.read_of_lt {m : Memory} {j : Nat} (h : ∀ c ∈ m, j < c.1) : m.read j = 0 := by
  induction m with
  | nil => rfl
  | cons c m ih =>
    have h0 := h c (by simp)
    have ih' := ih fun d hd => h d (by simp [hd])
    simp only [Memory.read]
    split
    · omega
    · exact ih'

/-- In a rising list, the tail of a cell lists only larger indices. -/
theorem Memory.tail_gt {c : Host.Cell} {m : Memory}
    (h : (c :: m).Pairwise (fun a b => a.1 < b.1)) : ∀ d ∈ m, c.1 < d.1 :=
  (List.pairwise_cons.1 h).1

theorem Memory.read_write_same {m : Memory} (h : m.Pairwise (fun c d => c.1 < d.1)) (j : Nat)
    (v : Byte) : (m.write j v).read j = v := by
  induction m with
  | nil =>
    simp only [Memory.write]
    split <;> simp_all [Memory.read]
  | cons c m ih =>
    obtain ⟨i, b⟩ := c
    have ht := Memory.tail_gt h
    have ih' := ih (List.pairwise_cons.1 h).2
    simp only [Memory.write]
    split
    · rename_i hlt
      split
      · subst_vars
        exact Memory.read_of_lt fun c hc => by
          rcases List.mem_cons.1 hc with rfl | hc
          · exact hlt
          · exact hlt.trans (ht c hc)
      · simp [Memory.read]
    · split
      · split
        · subst_vars
          exact Memory.read_of_lt ht
        · simp [Memory.read]
      · rename_i hne
        simp only [Memory.read, if_neg hne, ih']

theorem Memory.read_write_of_ne {m : Memory} (h : m.Pairwise (fun c d => c.1 < d.1)) {j k : Nat}
    (hk : k ≠ j) (v : Byte) : (m.write j v).read k = m.read k := by
  induction m with
  | nil =>
    simp only [Memory.write]
    split
    · rfl
    · simp [Memory.read, Ne.symm hk]
  | cons c m ih =>
    obtain ⟨i, b⟩ := c
    have ih' := ih (List.pairwise_cons.1 h).2
    simp only [Memory.write]
    split
    · split
      · rfl
      · simp [Memory.read, Ne.symm hk]
    · split
      · rename_i he
        subst he
        split <;> simp [Memory.read, Ne.symm hk]
      · simp only [Memory.read, ih']

/-- Reading after a write, in one equation. -/
theorem Memory.read_write {m : Memory} (h : m.Pairwise (fun c d => c.1 < d.1)) (j k : Nat)
    (v : Byte) : (m.write j v).read k = if k = j then v else m.read k := by
  split
  · subst_vars
    exact Memory.read_write_same h _ _
  · exact Memory.read_write_of_ne h ‹_› v

theorem Memory.mem_write {m : Memory} {j : Nat} {v : Byte} {c : Host.Cell}
    (hc : c ∈ m.write j v) : c ∈ m ∨ (c = (j, v) ∧ v ≠ 0) := by
  induction m with
  | nil =>
    simp only [Memory.write] at hc
    split at hc
    · simp at hc
    · exact .inr ⟨by simpa using hc, ‹_›⟩
  | cons d m ih =>
    obtain ⟨i, b⟩ := d
    simp only [Memory.write] at hc
    split at hc
    · split at hc
      · exact .inl hc
      · rcases List.mem_cons.1 hc with rfl | hc
        · exact .inr ⟨rfl, ‹_›⟩
        · exact .inl hc
    · split at hc
      · split at hc
        · exact .inl (by simp [hc])
        · rcases List.mem_cons.1 hc with rfl | hc
          · exact .inr ⟨rfl, ‹_›⟩
          · exact .inl (by simp [hc])
      · rcases List.mem_cons.1 hc with rfl | hc
        · simp
        · rcases ih hc with h | h
          · exact .inl (by simp [h])
          · exact .inr h

theorem Memory.write_rising {m : Memory} (h : m.Pairwise (fun c d => c.1 < d.1)) (j : Nat)
    (v : Byte) : (m.write j v).Pairwise (fun c d => c.1 < d.1) := by
  induction m with
  | nil =>
    simp only [Memory.write]
    split <;> simp
  | cons c m ih =>
    obtain ⟨i, b⟩ := c
    have ht := Memory.tail_gt h
    have hm := (List.pairwise_cons.1 h).2
    simp only [Memory.write]
    split
    · rename_i hlt
      split
      · exact h
      · refine List.pairwise_cons.2 ⟨fun d hd => ?_, h⟩
        rcases List.mem_cons.1 hd with rfl | hd
        · exact hlt
        · exact hlt.trans (ht d hd)
    · split
      · rename_i he
        split
        · exact hm
        · exact List.pairwise_cons.2 ⟨fun d hd => he ▸ ht d hd, hm⟩
      · refine List.pairwise_cons.2 ⟨fun d hd => ?_, ih hm⟩
        rcases Memory.mem_write hd with hd | ⟨rfl, -⟩
        · exact ht d hd
        · simp only
          omega

/-- Every memory operation keeps the canonical form. -/
theorem Memory.write_wf {size j : Nat} {m : Memory} (h : m.Wf size) (hj : j < size) (v : Byte) :
    (m.write j v).Wf size := by
  refine ⟨Memory.write_rising h.1 j v, fun c hc => ?_⟩
  rcases Memory.mem_write hc with hc | ⟨rfl, hv⟩
  · exact h.2 c hc
  · exact ⟨hj, hv⟩

theorem Memory.zeroed_wf (size : Nat) : Memory.zeroed.Wf size := by
  simp [Memory.zeroed, Memory.Wf]

/-- An index outside the array is never listed. -/
theorem Memory.read_of_size_le {size j : Nat} {m : Memory} (h : m.Wf size) (hj : size ≤ j) :
    m.read j = 0 := by
  have h2 := h.2
  clear h
  induction m with
  | nil => rfl
  | cons c m ih =>
    have hc := h2 c (by simp)
    have ih' := ih fun d hd => h2 d (by simp [hd])
    simp only [Memory.read]
    split
    · omega
    · exact ih'

/-- Equal reads make canonical memories equal data. -/
theorem Memory.ext_of_wf {size : Nat} {m n : Memory} (hm : m.Wf size) (hn : n.Wf size)
    (h : ∀ j, m.read j = n.read j) : m = n := by
  induction m generalizing n with
  | nil =>
    cases n with
    | nil => rfl
    | cons d n =>
      have h1 := h d.1
      have h2 := (hn.2 d (by simp)).2
      simp only [Memory.read, if_true] at h1
      exact absurd h1.symm h2
  | cons c m ih =>
    have hcm := (hm.2 c (by simp)).2
    cases n with
    | nil =>
      have h1 := h c.1
      simp only [Memory.read, if_true] at h1
      exact absurd h1 hcm
    | cons d n =>
      have hdn := (hn.2 d (by simp)).2
      have tc := Memory.tail_gt hm.1
      have td := Memory.tail_gt hn.1
      have hc := h c.1
      have hd := h d.1
      simp only [Memory.read, if_true] at hc hd
      have e : c.1 = d.1 := by
        rcases Nat.lt_trichotomy c.1 d.1 with hlt | he | hgt
        · rw [if_neg (by omega), Memory.read_of_lt fun x hx => hlt.trans (td x hx)] at hc
          exact absurd hc hcm
        · exact he
        · rw [if_neg (by omega), Memory.read_of_lt fun x hx => hgt.trans (tc x hx)] at hd
          exact absurd hd.symm hdn
      have hb : c.2 = d.2 := by simpa [e] using hc
      have hmn : m = n := by
        refine ih ⟨(List.pairwise_cons.1 hm.1).2, fun x hx => hm.2 x (by simp [hx])⟩
          ⟨(List.pairwise_cons.1 hn.1).2, fun x hx => hn.2 x (by simp [hx])⟩ fun j => ?_
        have hj := h j
        simp only [Memory.read] at hj
        by_cases hjc : c.1 = j
        · rw [Memory.read_of_lt fun x hx => hjc ▸ tc x hx,
            Memory.read_of_lt fun x hx => hjc ▸ e ▸ td x hx]
        · rwa [if_neg hjc, if_neg (e ▸ hjc)] at hj
      rw [hmn, Prod.ext e hb]

end Sys2Proof.Machine
end

