-- ==== Sys2Proof/Laws/State.lean ====
section
/-! SUPPORT. What each update of the state does to each field, so that no proof unfolds a record
update. The memory left by a byte write, a word write and a push is untagged: Laws/Ops.lean's
`read_writeByte`, `read_writeWord` and `read_pushReg` say what reading it gives. -/

namespace Sys2Proof.Machine

variable (s : State)

@[simp] theorem State.setReg_cfg (i : Nat) (v : Word) : (s.setReg i v).cfg = s.cfg := rfl
@[simp] theorem State.setReg_regs (i : Nat) (v : Word) : (s.setReg i v).regs = s.regs.set i v := rfl
@[simp] theorem State.setReg_mem (i : Nat) (v : Word) : (s.setReg i v).mem = s.mem := rfl
@[simp] theorem State.setReg_halted (i : Nat) (v : Word) : (s.setReg i v).halted = s.halted := rfl
@[simp] theorem State.setReg_status (i : Nat) (v : Word) : (s.setReg i v).status = s.status := rfl
@[simp] theorem State.setReg_haltReason (i : Nat) (v : Word) :
    (s.setReg i v).haltReason =
      s.haltReason := rfl
@[simp] theorem State.setReg_faultRecord (i : Nat) (v : Word) :
    (s.setReg i v).faultRecord =
      s.faultRecord := rfl
@[simp] theorem State.setReg_output (i : Nat) (v : Word) : (s.setReg i v).output = s.output := rfl
@[simp] theorem State.setReg_segments (i : Nat) (v : Word) :
    (s.setReg i v).segments =
      s.segments := rfl
@[simp] theorem State.setReg_icount (i : Nat) (v : Word) : (s.setReg i v).icount = s.icount := rfl
@[simp] theorem State.setReg_timeoutAfter (i : Nat) (v : Word) :
    (s.setReg i v).timeoutAfter =
      s.timeoutAfter := rfl
@[simp] theorem State.setReg_outScan (i : Nat) (v : Word) :
    (s.setReg i v).outScan =
      s.outScan := rfl

@[simp] theorem State.advance_cfg (o : Opcode) : (s.advance o).cfg = s.cfg := rfl
@[simp] theorem State.advance_regs (o : Opcode) :
    (s.advance o).regs =
      s.regs.set 0 (addW s.ip o.length) := rfl
@[simp] theorem State.advance_mem (o : Opcode) : (s.advance o).mem = s.mem := rfl
@[simp] theorem State.advance_halted (o : Opcode) : (s.advance o).halted = s.halted := rfl
@[simp] theorem State.advance_status (o : Opcode) : (s.advance o).status = s.status := rfl
@[simp] theorem State.advance_haltReason (o : Opcode) :
    (s.advance o).haltReason =
      s.haltReason := rfl
@[simp] theorem State.advance_faultRecord (o : Opcode) :
    (s.advance o).faultRecord =
      s.faultRecord := rfl
@[simp] theorem State.advance_output (o : Opcode) : (s.advance o).output = s.output := rfl
@[simp] theorem State.advance_segments (o : Opcode) : (s.advance o).segments = s.segments := rfl
@[simp] theorem State.advance_icount (o : Opcode) : (s.advance o).icount = s.icount := rfl
@[simp] theorem State.advance_timeoutAfter (o : Opcode) :
    (s.advance o).timeoutAfter =
      s.timeoutAfter := rfl
@[simp] theorem State.advance_outScan (o : Opcode) : (s.advance o).outScan = s.outScan := rfl

@[simp] theorem State.raiseSp_cfg : s.raiseSp.cfg = s.cfg := rfl
@[simp] theorem State.raiseSp_regs : s.raiseSp.regs = s.regs.set 1 (addW s.sp 2) := rfl
@[simp] theorem State.raiseSp_mem : s.raiseSp.mem = s.mem := rfl
@[simp] theorem State.raiseSp_halted : s.raiseSp.halted = s.halted := rfl
@[simp] theorem State.raiseSp_status : s.raiseSp.status = s.status := rfl
@[simp] theorem State.raiseSp_haltReason : s.raiseSp.haltReason = s.haltReason := rfl
@[simp] theorem State.raiseSp_faultRecord : s.raiseSp.faultRecord = s.faultRecord := rfl
@[simp] theorem State.raiseSp_output : s.raiseSp.output = s.output := rfl
@[simp] theorem State.raiseSp_segments : s.raiseSp.segments = s.segments := rfl
@[simp] theorem State.raiseSp_icount : s.raiseSp.icount = s.icount := rfl
@[simp] theorem State.raiseSp_timeoutAfter : s.raiseSp.timeoutAfter = s.timeoutAfter := rfl
@[simp] theorem State.raiseSp_outScan : s.raiseSp.outScan = s.outScan := rfl

@[simp] theorem State.poke_cfg (j : Nat) (v : Byte) : (s.poke j v).cfg = s.cfg := rfl
@[simp] theorem State.poke_regs (j : Nat) (v : Byte) : (s.poke j v).regs = s.regs := rfl
@[simp] theorem State.poke_mem (j : Nat) (v : Byte) : (s.poke j v).mem = s.mem.write j v := rfl
@[simp] theorem State.poke_halted (j : Nat) (v : Byte) : (s.poke j v).halted = s.halted := rfl
@[simp] theorem State.poke_status (j : Nat) (v : Byte) : (s.poke j v).status = s.status := rfl
@[simp] theorem State.poke_haltReason (j : Nat) (v : Byte) :
    (s.poke j v).haltReason =
      s.haltReason := rfl
@[simp] theorem State.poke_faultRecord (j : Nat) (v : Byte) :
    (s.poke j v).faultRecord =
      s.faultRecord := rfl
@[simp] theorem State.poke_output (j : Nat) (v : Byte) : (s.poke j v).output = s.output := rfl
@[simp] theorem State.poke_segments (j : Nat) (v : Byte) : (s.poke j v).segments = s.segments := rfl
@[simp] theorem State.poke_icount (j : Nat) (v : Byte) : (s.poke j v).icount = s.icount := rfl
@[simp] theorem State.poke_timeoutAfter (j : Nat) (v : Byte) :
    (s.poke j v).timeoutAfter =
      s.timeoutAfter := rfl
@[simp] theorem State.poke_outScan (j : Nat) (v : Byte) : (s.poke j v).outScan = s.outScan := rfl

@[simp] theorem State.writeByte_cfg (a : Word) (v : Byte) : (s.writeByte a v).cfg = s.cfg := rfl
@[simp] theorem State.writeByte_regs (a : Word) (v : Byte) : (s.writeByte a v).regs = s.regs := rfl
theorem State.writeByte_mem (a : Word) (v : Byte) :
    (s.writeByte a v).mem =
      s.mem.write (s.phys a.toNat) v := rfl
@[simp] theorem State.writeByte_halted (a : Word) (v : Byte) :
    (s.writeByte a v).halted =
      s.halted := rfl
@[simp] theorem State.writeByte_status (a : Word) (v : Byte) :
    (s.writeByte a v).status =
      s.status := rfl
@[simp] theorem State.writeByte_haltReason (a : Word) (v : Byte) :
    (s.writeByte a v).haltReason =
      s.haltReason := rfl
@[simp] theorem State.writeByte_faultRecord (a : Word) (v : Byte) :
    (s.writeByte a v).faultRecord =
      s.faultRecord := rfl
@[simp] theorem State.writeByte_output (a : Word) (v : Byte) :
    (s.writeByte a v).output =
      s.output := rfl
@[simp] theorem State.writeByte_segments (a : Word) (v : Byte) :
    (s.writeByte a v).segments =
      s.segments := rfl
@[simp] theorem State.writeByte_icount (a : Word) (v : Byte) :
    (s.writeByte a v).icount =
      s.icount := rfl
@[simp] theorem State.writeByte_timeoutAfter (a : Word) (v : Byte) :
    (s.writeByte a v).timeoutAfter =
      s.timeoutAfter := rfl
@[simp] theorem State.writeByte_outScan (a : Word) (v : Byte) :
    (s.writeByte a v).outScan =
      s.outScan := rfl

@[simp] theorem State.writeWord_cfg (a w : Word) : (s.writeWord a w).cfg = s.cfg := rfl
@[simp] theorem State.writeWord_regs (a w : Word) : (s.writeWord a w).regs = s.regs := rfl
theorem State.writeWord_mem (a w : Word) :
    (s.writeWord a w).mem =
      (s.mem.write (s.phys a.toNat) (hiByte w)).write (s.phys (a.toNat + 1)) (loByte w) := rfl
@[simp] theorem State.writeWord_halted (a w : Word) : (s.writeWord a w).halted = s.halted := rfl
@[simp] theorem State.writeWord_status (a w : Word) : (s.writeWord a w).status = s.status := rfl
@[simp] theorem State.writeWord_haltReason (a w : Word) :
    (s.writeWord a w).haltReason =
      s.haltReason := rfl
@[simp] theorem State.writeWord_faultRecord (a w : Word) :
    (s.writeWord a w).faultRecord =
      s.faultRecord := rfl
@[simp] theorem State.writeWord_output (a w : Word) : (s.writeWord a w).output = s.output := rfl
@[simp] theorem State.writeWord_segments (a w : Word) :
    (s.writeWord a w).segments =
      s.segments := rfl
@[simp] theorem State.writeWord_icount (a w : Word) : (s.writeWord a w).icount = s.icount := rfl
@[simp] theorem State.writeWord_timeoutAfter (a w : Word) :
    (s.writeWord a w).timeoutAfter =
      s.timeoutAfter := rfl
@[simp] theorem State.writeWord_outScan (a w : Word) : (s.writeWord a w).outScan = s.outScan := rfl

@[simp] theorem State.pushReg_cfg (r : Nat) : (s.pushReg r).cfg = s.cfg := rfl
@[simp] theorem State.pushReg_regs (r : Nat) :
    (s.pushReg r).regs =
      s.regs.set 1 (subW s.sp 2) := rfl
theorem State.pushReg_mem (r : Nat) :
    (s.pushReg r).mem =
      (s.mem.write (s.phys (subW s.sp 2).toNat) (hiByte (s.getReg r))).write
        (s.phys ((subW s.sp 2).toNat + 1)) (loByte (s.getReg r)) := rfl
@[simp] theorem State.pushReg_halted (r : Nat) : (s.pushReg r).halted = s.halted := rfl
@[simp] theorem State.pushReg_status (r : Nat) : (s.pushReg r).status = s.status := rfl
@[simp] theorem State.pushReg_haltReason (r : Nat) : (s.pushReg r).haltReason = s.haltReason := rfl
@[simp] theorem State.pushReg_faultRecord (r : Nat) :
    (s.pushReg r).faultRecord =
      s.faultRecord := rfl
@[simp] theorem State.pushReg_output (r : Nat) : (s.pushReg r).output = s.output := rfl
@[simp] theorem State.pushReg_segments (r : Nat) : (s.pushReg r).segments = s.segments := rfl
@[simp] theorem State.pushReg_icount (r : Nat) : (s.pushReg r).icount = s.icount := rfl
@[simp] theorem State.pushReg_timeoutAfter (r : Nat) :
    (s.pushReg r).timeoutAfter =
      s.timeoutAfter := rfl
@[simp] theorem State.pushReg_outScan (r : Nat) : (s.pushReg r).outScan = s.outScan := rfl

@[simp] theorem State.emit_cfg (es : List OutEntry) : (s.emit es).cfg = s.cfg := rfl
@[simp] theorem State.emit_regs (es : List OutEntry) : (s.emit es).regs = s.regs := rfl
@[simp] theorem State.emit_mem (es : List OutEntry) : (s.emit es).mem = s.mem := rfl
@[simp] theorem State.emit_halted (es : List OutEntry) : (s.emit es).halted = s.halted := rfl
@[simp] theorem State.emit_status (es : List OutEntry) : (s.emit es).status = s.status := rfl
@[simp] theorem State.emit_haltReason (es : List OutEntry) :
    (s.emit es).haltReason =
      s.haltReason := rfl
@[simp] theorem State.emit_faultRecord (es : List OutEntry) :
    (s.emit es).faultRecord =
      s.faultRecord := rfl
@[simp] theorem State.emit_output (es : List OutEntry) : (s.emit es).output = s.output ++ es := rfl
@[simp] theorem State.emit_segments (es : List OutEntry) : (s.emit es).segments = s.segments := rfl
@[simp] theorem State.emit_icount (es : List OutEntry) : (s.emit es).icount = s.icount := rfl
@[simp] theorem State.emit_timeoutAfter (es : List OutEntry) :
    (s.emit es).timeoutAfter =
      s.timeoutAfter := rfl
@[simp] theorem State.emit_outScan (es : List OutEntry) : (s.emit es).outScan = s.outScan := rfl

@[simp] theorem State.takeFault_cfg (k : FaultKind) (a0 : Word) :
    (s.takeFault k a0).cfg =
      s.cfg := rfl
@[simp] theorem State.takeFault_regs (k : FaultKind) (a0 : Word) :
    (s.takeFault k a0).regs =
      s.regs := rfl
@[simp] theorem State.takeFault_mem (k : FaultKind) (a0 : Word) :
    (s.takeFault k a0).mem =
      s.mem := rfl
@[simp] theorem State.takeFault_halted (k : FaultKind) (a0 : Word) :
    (s.takeFault k a0).halted =
      s.halted := rfl
@[simp] theorem State.takeFault_status (k : FaultKind) (a0 : Word) :
    (s.takeFault k a0).status =
      .faulted := rfl
@[simp] theorem State.takeFault_haltReason (k : FaultKind) (a0 : Word) :
    (s.takeFault k a0).haltReason =
      s.haltReason := rfl
@[simp] theorem State.takeFault_faultRecord (k : FaultKind) (a0 : Word) :
    (s.takeFault k a0).faultRecord =
      some { kind := k, opcodeAddr := a0 } := rfl
@[simp] theorem State.takeFault_output (k : FaultKind) (a0 : Word) :
    (s.takeFault k a0).output =
      s.output := rfl
@[simp] theorem State.takeFault_segments (k : FaultKind) (a0 : Word) :
    (s.takeFault k a0).segments =
      s.segments := rfl
@[simp] theorem State.takeFault_icount (k : FaultKind) (a0 : Word) :
    (s.takeFault k a0).icount =
      s.icount := rfl
@[simp] theorem State.takeFault_timeoutAfter (k : FaultKind) (a0 : Word) :
    (s.takeFault k a0).timeoutAfter =
      s.timeoutAfter := rfl
@[simp] theorem State.takeFault_outScan (k : FaultKind) (a0 : Word) :
    (s.takeFault k a0).outScan =
      s.outScan := rfl

@[simp] theorem State.halt_cfg (r : HaltReason) : (s.halt r).cfg = s.cfg := rfl
@[simp] theorem State.halt_regs (r : HaltReason) : (s.halt r).regs = s.regs := rfl
@[simp] theorem State.halt_mem (r : HaltReason) : (s.halt r).mem = s.mem := rfl
@[simp] theorem State.halt_halted (r : HaltReason) : (s.halt r).halted = true := rfl
@[simp] theorem State.halt_status (r : HaltReason) : (s.halt r).status = .halted := rfl
@[simp] theorem State.halt_haltReason (r : HaltReason) :
    (s.halt r).haltReason =
      s.haltReason.or (some r) := rfl
@[simp] theorem State.halt_faultRecord (r : HaltReason) :
    (s.halt r).faultRecord =
      s.faultRecord := rfl
@[simp] theorem State.halt_output (r : HaltReason) : (s.halt r).output = s.output := rfl
@[simp] theorem State.halt_segments (r : HaltReason) : (s.halt r).segments = s.segments := rfl
@[simp] theorem State.halt_icount (r : HaltReason) : (s.halt r).icount = s.icount := rfl
@[simp] theorem State.halt_timeoutAfter (r : HaltReason) :
    (s.halt r).timeoutAfter =
      s.timeoutAfter := rfl
@[simp] theorem State.halt_outScan (r : HaltReason) : (s.halt r).outScan = s.outScan := rfl

@[simp] theorem State.startRun_cfg : s.startRun.cfg = s.cfg := rfl
@[simp] theorem State.startRun_regs : s.startRun.regs = s.regs := rfl
@[simp] theorem State.startRun_mem : s.startRun.mem = s.mem := rfl
@[simp] theorem State.startRun_halted : s.startRun.halted = s.halted := rfl
@[simp] theorem State.startRun_status : s.startRun.status = .running := rfl
@[simp] theorem State.startRun_haltReason : s.startRun.haltReason = s.haltReason := rfl
@[simp] theorem State.startRun_faultRecord : s.startRun.faultRecord = s.faultRecord := rfl
@[simp] theorem State.startRun_output : s.startRun.output = s.output := rfl
@[simp] theorem State.startRun_segments : s.startRun.segments = s.segments := rfl
@[simp] theorem State.startRun_icount : s.startRun.icount = s.icount := rfl
@[simp] theorem State.startRun_timeoutAfter : s.startRun.timeoutAfter = s.timeoutAfter := rfl
@[simp] theorem State.startRun_outScan : s.startRun.outScan = s.outScan := rfl

@[simp] theorem State.count_cfg : s.count.cfg = s.cfg := rfl
@[simp] theorem State.count_regs : s.count.regs = s.regs := rfl
@[simp] theorem State.count_mem : s.count.mem = s.mem := rfl
@[simp] theorem State.count_halted : s.count.halted = s.halted := rfl
@[simp] theorem State.count_status : s.count.status = s.status := rfl
@[simp] theorem State.count_haltReason : s.count.haltReason = s.haltReason := rfl
@[simp] theorem State.count_faultRecord : s.count.faultRecord = s.faultRecord := rfl
@[simp] theorem State.count_output : s.count.output = s.output := rfl
@[simp] theorem State.count_segments : s.count.segments = s.segments := rfl
@[simp] theorem State.count_icount : s.count.icount = s.icount + 1 := rfl
@[simp] theorem State.count_timeoutAfter : s.count.timeoutAfter = s.timeoutAfter - 1 := rfl
@[simp] theorem State.count_outScan : s.count.outScan = s.outScan := rfl

end Sys2Proof.Machine
end

