-- ==== Sys2Proof/Laws/Ops.lean ====
section
/-! SUPPORT. For each shared operation, one lemma that says all it can do. -/

namespace Sys2Proof

theorem Config.wf_bounds {c : Config} (h : c.wf = true) :
    2 ≤ c.memSize ∧ c.memSize ≤ 65536 ∧ 4 ≤ c.nreg ∧ c.nreg ≤ 16 ∧
      ∀ n, c.stepBudget = some n → 1 ≤ n := by
  simp only [Config.wf, Bool.and_eq_true, decide_eq_true_eq] at h
  obtain ⟨⟨⟨⟨h1, h2⟩, h3⟩, h4⟩, h5⟩ := h
  refine ⟨h1, h2, h3, h4, fun n hn => ?_⟩
  simpa [hn] using h5

end Sys2Proof

namespace Sys2Proof.Machine

/-! ### Registers -/

theorem State.getReg_setReg (s : State) (i j : Nat) (v : Word) :
    (s.setReg i v).getReg j = if i = j ∧ j < s.regs.length then v else s.getReg j := by
  simp only [State.getReg, State.setReg, List.getD_eq_getElem?_getD, List.getElem?_set]
  by_cases hij : i = j
  · subst hij
    by_cases hl : i < s.regs.length <;> simp [hl]
  · simp [hij]

@[simp] theorem State.getReg_setReg_of_ne (s : State) {i j : Nat} (h : i ≠ j) (v : Word) :
    (s.setReg i v).getReg j = s.getReg j := by
  simp [State.getReg_setReg, h]

theorem State.getReg_setReg_same (s : State) {i : Nat} (h : i < s.regs.length) (v : Word) :
    (s.setReg i v).getReg i = v := by
  simp [State.getReg_setReg, h]

@[simp] theorem State.getReg_poke (s : State) (j : Nat) (v : Byte) (i : Nat) :
    (s.poke j v).getReg i = s.getReg i := rfl

@[simp] theorem State.getReg_writeByte (s : State) (a : Word) (v : Byte) (i : Nat) :
    (s.writeByte a v).getReg i = s.getReg i := rfl

@[simp] theorem State.getReg_writeWord (s : State) (a w : Word) (i : Nat) :
    (s.writeWord a w).getReg i = s.getReg i := rfl

@[simp] theorem State.getReg_emit (s : State) (es : List OutEntry) (i : Nat) :
    (s.emit es).getReg i = s.getReg i := rfl

@[simp] theorem State.getReg_startRun (s : State) (i : Nat) :
    s.startRun.getReg i = s.getReg i := rfl

@[simp] theorem State.getReg_takeFault (s : State) (k : FaultKind) (a0 : Word) (i : Nat) :
    (s.takeFault k a0).getReg i = s.getReg i := rfl

@[simp] theorem State.getReg_halt (s : State) (r : HaltReason) (i : Nat) :
    (s.halt r).getReg i = s.getReg i := rfl

theorem State.getReg_advance (s : State) (o : Opcode) (i : Nat) :
    (s.advance o).getReg i =
      if 0 = i ∧ i < s.regs.length then addW s.ip o.length else s.getReg i :=
  s.getReg_setReg 0 i _

@[simp] theorem State.getReg_advance_of_ne (s : State) (o : Opcode) {i : Nat} (h : 0 ≠ i) :
    (s.advance o).getReg i = s.getReg i :=
  s.getReg_setReg_of_ne h _

theorem State.ip_advance {s : State} (h : 0 < s.regs.length) (o : Opcode) :
    (s.advance o).ip = addW s.ip o.length :=
  s.getReg_setReg_same h _

@[simp] theorem State.sp_advance (s : State) (o : Opcode) : (s.advance o).sp = s.sp :=
  s.getReg_advance_of_ne o (by decide)

@[simp] theorem State.bp_advance (s : State) (o : Opcode) : (s.advance o).bp = s.bp :=
  s.getReg_advance_of_ne o (by decide)

/-! ### Memory -/

theorem State.phys_lt {s : State} (h : s.cfg.wf = true) (a : Nat) : s.phys a < s.cfg.memSize :=
  Nat.mod_lt _ (by have := Config.wf_bounds h; omega)

theorem State.phys_of_lt {s : State} {a : Nat} (h : a < s.cfg.memSize) : s.phys a = a :=
  Nat.mod_eq_of_lt h

@[simp] theorem State.phys_setReg (s : State) (i : Nat) (v : Word) (a : Nat) :
    (s.setReg i v).phys a = s.phys a := by simp [State.phys]
@[simp] theorem State.phys_advance (s : State) (o : Opcode) (a : Nat) :
    (s.advance o).phys a = s.phys a := by simp [State.phys]
@[simp] theorem State.phys_raiseSp (s : State) (a : Nat) :
    s.raiseSp.phys a = s.phys a := by simp [State.phys]
@[simp] theorem State.phys_poke (s : State) (j : Nat) (v : Byte) (a : Nat) :
    (s.poke j v).phys a = s.phys a := by simp [State.phys]
@[simp] theorem State.phys_writeByte (s : State) (b : Word) (v : Byte) (a : Nat) :
    (s.writeByte b v).phys a = s.phys a := by simp [State.phys]
@[simp] theorem State.phys_writeWord (s : State) (b w : Word) (a : Nat) :
    (s.writeWord b w).phys a = s.phys a := by simp [State.phys]
@[simp] theorem State.phys_pushReg (s : State) (r : Nat) (a : Nat) :
    (s.pushReg r).phys a = s.phys a := by simp [State.phys]
@[simp] theorem State.phys_emit (s : State) (es : List OutEntry) (a : Nat) :
    (s.emit es).phys a = s.phys a := by simp [State.phys]
@[simp] theorem State.phys_takeFault (s : State) (k : FaultKind) (a0 : Word) (a : Nat) :
    (s.takeFault k a0).phys a = s.phys a := by simp [State.phys]
@[simp] theorem State.phys_halt (s : State) (r : HaltReason) (a : Nat) :
    (s.halt r).phys a = s.phys a := by simp [State.phys]
@[simp] theorem State.phys_startRun (s : State) (a : Nat) :
    s.startRun.phys a = s.phys a := by simp [State.phys]
@[simp] theorem State.phys_count (s : State) (a : Nat) :
    s.count.phys a = s.phys a := by simp [State.phys]

/-- The two bytes of a word never share a physical byte. -/
theorem State.phys_succ_ne {s : State} (h : s.cfg.wf = true) (a : Nat) :
    s.phys (a + 1) ≠ s.phys a := by
  have hb := Config.wf_bounds h
  simp only [State.phys]
  intro he
  have h1 : (a + 1) % s.cfg.memSize = (a % s.cfg.memSize + 1) % s.cfg.memSize := by
    rw [Nat.add_mod, Nat.mod_eq_of_lt (show 1 < s.cfg.memSize by omega)]
  have h2 := Nat.mod_lt a (show 0 < s.cfg.memSize by omega)
  rcases Nat.lt_or_ge (a % s.cfg.memSize + 1) s.cfg.memSize with h3 | h3
  · rw [h1, Nat.mod_eq_of_lt h3] at he
    omega
  · have h4 : a % s.cfg.memSize + 1 = s.cfg.memSize := by omega
    rw [h1, h4, Nat.mod_self] at he
    omega

/-- R43: what a word read answers. -/
theorem State.readWord_eq (s : State) (a : Word) :
    (a.toNat + 1 < s.cfg.memSize ∧
        s.readWord a = some (wordOf (s.mem.read a.toNat) (s.mem.read (a.toNat + 1)))) ∨
      (s.cfg.memSize ≤ a.toNat + 1 ∧ s.readWord a = none) := by
  simp only [State.readWord, State.wordReadable, decide_eq_true_eq]
  split
  · exact .inl ⟨‹_›, rfl⟩
  · exact .inr ⟨by omega, rfl⟩

/-- R44: memory after a byte write. -/
theorem State.read_writeByte {s : State} (h : s.mem.Wf s.cfg.memSize) (a : Word) (v : Byte)
    (j : Nat) :
    (s.writeByte a v).mem.read j = if j = s.phys a.toNat then v else s.mem.read j :=
  Memory.read_write h.1 _ _ _

/-- R45: memory after a word write. -/
theorem State.read_writeWord {s : State} (h : s.mem.Wf s.cfg.memSize) (a w : Word) (j : Nat) :
    (s.writeWord a w).mem.read j =
      if j = s.phys (a.toNat + 1) then loByte w
      else if j = s.phys a.toNat then hiByte w
      else s.mem.read j := by
  rw [State.writeWord_mem, Memory.read_write (Memory.write_rising h.1 _ _), Memory.read_write h.1]

theorem State.writeByte_wf {s : State} (hc : s.cfg.wf = true) (h : s.mem.Wf s.cfg.memSize)
    (a : Word) (v : Byte) : (s.writeByte a v).mem.Wf s.cfg.memSize :=
  Memory.write_wf h (State.phys_lt hc _) v

theorem State.writeWord_wf {s : State} (hc : s.cfg.wf = true) (h : s.mem.Wf s.cfg.memSize)
    (a w : Word) : (s.writeWord a w).mem.Wf s.cfg.memSize :=
  Memory.write_wf (Memory.write_wf h (State.phys_lt hc _) _) (State.phys_lt hc _) _

/-! ### Register operands and the stack -/

/-- R67, R153: what the register-index check answers. -/
theorem State.checkReg_eq (s : State) (r : RegIndex) (a0 : Word) :
    (r.toNat < s.cfg.nreg ∧ s.checkReg r a0 = .ok r.toNat) ∨
      (s.cfg.nreg ≤ r.toNat ∧ s.checkReg r a0 = .error (s.takeFault (.illegalRegister r) a0)) := by
  simp only [State.checkReg]
  split
  · exact .inl ⟨‹_›, rfl⟩
  · exact .inr ⟨by omega, rfl⟩

theorem State.checkReg_ok {s : State} {r : RegIndex} (h : r.toNat < s.cfg.nreg) (a0 : Word) :
    s.checkReg r a0 = .ok r.toNat := by
  simp [State.checkReg, h]

theorem State.checkReg_error {s : State} {r : RegIndex} (h : s.cfg.nreg ≤ r.toNat) (a0 : Word) :
    s.checkReg r a0 = .error (s.takeFault (.illegalRegister r) a0) := by
  simp [State.checkReg, Nat.not_lt.2 h]

/-- R121: what the increment leaves in the registers. -/
theorem State.getReg_raiseSp (s : State) (i : Nat) :
    s.raiseSp.getReg i = if 1 = i ∧ i < s.regs.length then addW s.sp 2 else s.getReg i :=
  s.getReg_setReg 1 i _

/-- R120: what a push leaves in the registers. -/
theorem State.getReg_pushReg (s : State) (r i : Nat) :
    (s.pushReg r).getReg i =
      if 1 = i ∧ i < s.regs.length then subW s.sp 2 else s.getReg i :=
  s.getReg_setReg 1 i _

/-- R120: what a push leaves in memory. -/
theorem State.read_pushReg {s : State} (h : s.mem.Wf s.cfg.memSize) (r j : Nat) :
    (s.pushReg r).mem.read j =
      if j = s.phys ((subW s.sp 2).toNat + 1) then loByte (s.getReg r)
      else if j = s.phys (subW s.sp 2).toNat then hiByte (s.getReg r)
      else s.mem.read j :=
  State.read_writeWord (s := s.setReg 1 (subW s.sp 2)) h _ _ j

/-- R121: what a pop answers. -/
theorem State.popReg_eq (s : State) (r : Nat) (a0 : Word) :
    (s.sp.toNat + 1 < s.cfg.memSize ∧
        s.popReg r a0 = .ok (s.setReg r
          (wordOf (s.mem.read s.sp.toNat) (s.mem.read (s.sp.toNat + 1)))).raiseSp) ∨
      (s.cfg.memSize ≤ s.sp.toNat + 1 ∧
        s.popReg r a0 = .error (s.takeFault (.boundsFault s.sp) a0)) := by
  rcases s.readWord_eq s.sp with ⟨h, e⟩ | ⟨h, e⟩
  · exact .inl ⟨h, by simp [State.popReg, e]⟩
  · exact .inr ⟨h, by simp [State.popReg, e]⟩

theorem State.popReg_ok {s : State} (h : s.sp.toNat + 1 < s.cfg.memSize) (r : Nat) (a0 : Word) :
    s.popReg r a0 = .ok (s.setReg r (s.wordAt s.sp.toNat)).raiseSp := by
  rcases s.popReg_eq r a0 with ⟨-, e⟩ | ⟨h', -⟩
  · exact e
  · omega

theorem State.popReg_error {s : State} (h : s.cfg.memSize ≤ s.sp.toNat + 1) (r : Nat)
    (a0 : Word) : s.popReg r a0 = .error (s.takeFault (.boundsFault s.sp) a0) := by
  rcases s.popReg_eq r a0 with ⟨h', -⟩ | ⟨-, e⟩
  · omega
  · exact e

/-! ### out -/

/-- R140: a scan finds the first zero byte among the `n` addresses from `a`, or reads them all. -/
theorem State.scan_eq (s : State) (n : Nat) (a : Word) :
    (∃ k, k < n ∧ s.readByte (addW a k) = 0 ∧ (∀ m, m < k → s.readByte (addW a m) ≠ 0) ∧
        s.scan n a = ((List.range k).map fun m => s.readByte (addW a m), true)) ∨
      ((∀ m, m < n → s.readByte (addW a m) ≠ 0) ∧
        s.scan n a = ((List.range n).map fun m => s.readByte (addW a m), false)) := by
  induction n generalizing a with
  | zero => exact .inr ⟨by simp, by simp [State.scan]⟩
  | succ n ih =>
    by_cases h0 : s.readByte a = 0
    · exact .inl ⟨0, by omega, by simpa using h0, by simp, by simp [State.scan, h0]⟩
    · have shift : ∀ m, addW (addW a 1) m = addW a (m + 1) := fun m => by
        rw [addW_addW, Nat.add_comm]
      have cons : ∀ k, s.readByte a :: (List.range k).map (fun m => s.readByte (addW a (m + 1))) =
          (List.range (k + 1)).map fun m => s.readByte (addW a m) := fun k => by
        simp [List.range_succ_eq_map, Function.comp_def]
      have step : ∀ {k : Nat}, (∀ m, m < k → s.readByte (addW a (m + 1)) ≠ 0) →
          ∀ m, m < k + 1 → s.readByte (addW a m) ≠ 0 := by
        intro k hk m hm
        cases m with
        | zero => simpa using h0
        | succ m => exact hk m (by omega)
      rcases ih (addW a 1) with ⟨k, hk, hz, hnz, e⟩ | ⟨hnz, e⟩
      · simp only [shift] at hz hnz e
        exact .inl ⟨k + 1, by omega, hz, step hnz, by simp only [State.scan, if_neg h0, e, cons]⟩
      · simp only [shift] at hnz e
        exact .inr ⟨step hnz, by simp only [State.scan, if_neg h0, e, cons]⟩

/-- R140: what one pass of `out` does. -/
theorem State.outFrom_eq (s : State) (a : Word) :
    (∃ k, k < addressCount ∧ s.readByte (addW a k) = 0 ∧
        (∀ m, m < k → s.readByte (addW a m) ≠ 0) ∧
        s.outFrom a = { s with
          output := s.output ++ (List.range k).map fun m => .char (s.readByte (addW a m))
          outScan := none }) ∨
      ((∀ m, m < addressCount → s.readByte (addW a m) ≠ 0) ∧
        s.outFrom a = { s with
          output := s.output ++
            (List.range addressCount).map fun m => .char (s.readByte (addW a m))
          outScan := some a }) := by
  unfold State.outFrom
  generalize addressCount = n
  rcases s.scan_eq n a with ⟨k, hk, hz, hnz, e⟩ | ⟨hnz, e⟩
  · exact .inl ⟨k, hk, hz, hnz, by simp [e, State.emit, Function.comp_def]⟩
  · exact .inr ⟨hnz, by simp [e, State.emit, Function.comp_def]⟩

@[simp] theorem State.outFrom_cfg (s : State) (a : Word) :
    (s.outFrom a).cfg = s.cfg := rfl
@[simp] theorem State.outFrom_regs (s : State) (a : Word) :
    (s.outFrom a).regs = s.regs := rfl
@[simp] theorem State.outFrom_mem (s : State) (a : Word) :
    (s.outFrom a).mem = s.mem := rfl
@[simp] theorem State.outFrom_halted (s : State) (a : Word) :
    (s.outFrom a).halted = s.halted := rfl
@[simp] theorem State.outFrom_status (s : State) (a : Word) :
    (s.outFrom a).status = s.status := rfl
@[simp] theorem State.outFrom_haltReason (s : State) (a : Word) :
    (s.outFrom a).haltReason = s.haltReason := rfl
@[simp] theorem State.outFrom_faultRecord (s : State) (a : Word) :
    (s.outFrom a).faultRecord = s.faultRecord := rfl
@[simp] theorem State.outFrom_segments (s : State) (a : Word) :
    (s.outFrom a).segments = s.segments := rfl
@[simp] theorem State.outFrom_icount (s : State) (a : Word) :
    (s.outFrom a).icount = s.icount := rfl
@[simp] theorem State.outFrom_timeoutAfter (s : State) (a : Word) :
    (s.outFrom a).timeoutAfter = s.timeoutAfter := rfl

/-! ### input -/

/-- R141: the copy changes memory only. -/
theorem State.copyInput_eq (s : State) (sp : Word) (n : Nat) :
    s.copyInput sp n = { s with mem := (s.copyInput sp n).mem } := by
  induction n with
  | zero => rfl
  | succ n ih =>
    simp only [State.copyInput]
    rw [ih]
    rfl

@[simp] theorem State.copyInput_cfg (s : State) (sp : Word) (n : Nat) :
    (s.copyInput sp n).cfg = s.cfg := by rw [State.copyInput_eq]
@[simp] theorem State.copyInput_regs (s : State) (sp : Word) (n : Nat) :
    (s.copyInput sp n).regs = s.regs := by rw [State.copyInput_eq]
@[simp] theorem State.copyInput_halted (s : State) (sp : Word) (n : Nat) :
    (s.copyInput sp n).halted = s.halted := by rw [State.copyInput_eq]
@[simp] theorem State.copyInput_status (s : State) (sp : Word) (n : Nat) :
    (s.copyInput sp n).status = s.status := by rw [State.copyInput_eq]
@[simp] theorem State.copyInput_haltReason (s : State) (sp : Word) (n : Nat) :
    (s.copyInput sp n).haltReason = s.haltReason := by rw [State.copyInput_eq]
@[simp] theorem State.copyInput_faultRecord (s : State) (sp : Word) (n : Nat) :
    (s.copyInput sp n).faultRecord = s.faultRecord := by rw [State.copyInput_eq]
@[simp] theorem State.copyInput_output (s : State) (sp : Word) (n : Nat) :
    (s.copyInput sp n).output = s.output := by rw [State.copyInput_eq]
@[simp] theorem State.copyInput_segments (s : State) (sp : Word) (n : Nat) :
    (s.copyInput sp n).segments = s.segments := by rw [State.copyInput_eq]
@[simp] theorem State.copyInput_icount (s : State) (sp : Word) (n : Nat) :
    (s.copyInput sp n).icount = s.icount := by rw [State.copyInput_eq]
@[simp] theorem State.copyInput_timeoutAfter (s : State) (sp : Word) (n : Nat) :
    (s.copyInput sp n).timeoutAfter = s.timeoutAfter := by rw [State.copyInput_eq]
@[simp] theorem State.copyInput_outScan (s : State) (sp : Word) (n : Nat) :
    (s.copyInput sp n).outScan = s.outScan := by rw [State.copyInput_eq]

/-- R141: one more byte of the copy. -/
theorem State.copyInput_succ (s : State) (sp : Word) (n : Nat) :
    s.copyInput sp (n + 1) =
      (s.copyInput sp n).writeByte (addW (subW sp Config.inputBack) n)
        ((s.copyInput sp n).readByte (addW Config.inputSrc n)) := rfl

theorem State.copyInput_wf {s : State} (hc : s.cfg.wf = true) (h : s.mem.Wf s.cfg.memSize)
    (sp : Word) (n : Nat) : (s.copyInput sp n).mem.Wf s.cfg.memSize := by
  induction n with
  | zero => exact h
  | succ n ih =>
    have e : (s.copyInput sp n).cfg = s.cfg := State.copyInput_cfg s sp n
    rw [State.copyInput_succ, ← e]
    exact State.writeByte_wf (e ▸ hc) (e ▸ ih) _ _

/-! ### The loader -/

/-- R183: loading bytes changes memory only. -/
theorem State.loadBytes_eq (s : State) (a : Word) (i : Nat) (bs : List Byte) :
    s.loadBytes a i bs = { s with mem := (s.loadBytes a i bs).mem } := by
  induction bs generalizing s i with
  | nil => rfl
  | cons b bs ih =>
    simp only [State.loadBytes]
    rw [ih]
    rfl

@[simp] theorem State.loadBytes_cfg (s : State) (a : Word) (i : Nat) (bs : List Byte) :
    (s.loadBytes a i bs).cfg = s.cfg := by rw [State.loadBytes_eq]
@[simp] theorem State.loadBytes_regs (s : State) (a : Word) (i : Nat) (bs : List Byte) :
    (s.loadBytes a i bs).regs = s.regs := by rw [State.loadBytes_eq]
@[simp] theorem State.loadBytes_halted (s : State) (a : Word) (i : Nat) (bs : List Byte) :
    (s.loadBytes a i bs).halted = s.halted := by rw [State.loadBytes_eq]
@[simp] theorem State.loadBytes_status (s : State) (a : Word) (i : Nat) (bs : List Byte) :
    (s.loadBytes a i bs).status = s.status := by rw [State.loadBytes_eq]
@[simp] theorem State.loadBytes_haltReason (s : State) (a : Word) (i : Nat) (bs : List Byte) :
    (s.loadBytes a i bs).haltReason = s.haltReason := by rw [State.loadBytes_eq]
@[simp] theorem State.loadBytes_faultRecord (s : State) (a : Word) (i : Nat) (bs : List Byte) :
    (s.loadBytes a i bs).faultRecord = s.faultRecord := by rw [State.loadBytes_eq]
@[simp] theorem State.loadBytes_output (s : State) (a : Word) (i : Nat) (bs : List Byte) :
    (s.loadBytes a i bs).output = s.output := by rw [State.loadBytes_eq]
@[simp] theorem State.loadBytes_segments (s : State) (a : Word) (i : Nat) (bs : List Byte) :
    (s.loadBytes a i bs).segments = s.segments := by rw [State.loadBytes_eq]
@[simp] theorem State.loadBytes_icount (s : State) (a : Word) (i : Nat) (bs : List Byte) :
    (s.loadBytes a i bs).icount = s.icount := by rw [State.loadBytes_eq]
@[simp] theorem State.loadBytes_timeoutAfter (s : State) (a : Word) (i : Nat) (bs : List Byte) :
    (s.loadBytes a i bs).timeoutAfter = s.timeoutAfter := by rw [State.loadBytes_eq]
@[simp] theorem State.loadBytes_outScan (s : State) (a : Word) (i : Nat) (bs : List Byte) :
    (s.loadBytes a i bs).outScan = s.outScan := by rw [State.loadBytes_eq]

theorem State.loadBytes_wf {s : State} (hc : s.cfg.wf = true) (h : s.mem.Wf s.cfg.memSize)
    (a : Word) (i : Nat) (bs : List Byte) : (s.loadBytes a i bs).mem.Wf s.cfg.memSize := by
  induction bs generalizing s i with
  | nil => exact h
  | cons b bs ih => exact ih (s := s.writeByte (addW a i) b) hc (State.writeByte_wf hc h _ _) (i + 1)

/-! ### The cycle -/

/-- R37: a boundary leaves the environment's later draws as they were. -/
theorem State.timeoutAt_count (s : State) (k : Nat) : s.count.timeoutAt k = s.timeoutAt (k + 1) := by
  simp only [State.timeoutAt, State.count_timeoutAfter, Nat.sub_le_iff_le_add]

/-- R155: in every sequence of boundaries the draw is eventually true. -/
theorem State.timeoutAt_eventually (s : State) : ∃ k, s.timeoutAt k = true :=
  ⟨s.timeoutAfter, by simp [State.timeoutAt]⟩

/-- R84: what the boundary does. -/
theorem State.boundary_eq (s : State) :
    (s.status = .running ∧ (s.timeoutNow = true ∨ s.count.budgetSpent = true) ∧
        s.boundary = s.count.halt .timeout) ∨
      (¬ (s.status = .running ∧ (s.timeoutNow = true ∨ s.count.budgetSpent = true)) ∧
        s.boundary = s.count) := by
  simp only [State.boundary, Bool.and_eq_true, Bool.or_eq_true, decide_eq_true_eq]
  split
  · rename_i h
    exact .inl ⟨h.1, h.2, rfl⟩
  · exact .inr ⟨‹_›, rfl⟩

/-- R83, R84: a completed handler is followed by the boundary, any other by nothing. -/
theorem State.afterHandler_eq (s : State) :
    ((s.status ≠ .faulted ∧ s.outScan = none) ∧ s.afterHandler = s.boundary) ∨
      (¬ (s.status ≠ .faulted ∧ s.outScan = none) ∧ s.afterHandler = s) := by
  simp only [State.afterHandler, State.handlerCompleted, Bool.and_eq_true, decide_eq_true_eq,
    Option.isNone_iff_eq_none]
  split
  · exact .inl ⟨‹_›, rfl⟩
  · exact .inr ⟨‹_›, rfl⟩

/-- R80, R81: what a fetch answers. -/
theorem State.fetch_eq (s : State) :
    (opcodeOf (s.readByte s.ip) = none ∧ s.fetch = .unknown (s.readByte s.ip)) ∨
      (∃ o i, opcodeOf (s.readByte s.ip) = some o ∧
        o.readOperands s.cfg.wbOrder s.byteOperand s.wordOperand = .ok i ∧ s.fetch = .instr i) ∨
      (∃ o a, opcodeOf (s.readByte s.ip) = some o ∧
        o.readOperands s.cfg.wbOrder s.byteOperand s.wordOperand = .error a ∧
        s.fetch = .bounds a) := by
  cases h : opcodeOf (s.readByte s.ip) with
  | none => exact .inl ⟨rfl, by simp [State.fetch, h]⟩
  | some o =>
    cases h' : o.readOperands s.cfg.wbOrder s.byteOperand s.wordOperand with
    | ok i => exact .inr (.inl ⟨o, i, rfl, h', by simp [State.fetch, h, h']⟩)
    | error a => exact .inr (.inr ⟨o, a, rfl, h', by simp [State.fetch, h, h']⟩)

/-- R81: the word field at offset `k`, where its read passes the check. -/
theorem State.wordOperand_ok {s : State} {k : Nat} (h : s.wordReadable (addW s.ip k) = true) :
    s.wordOperand k = .ok (wordOf (s.mem.read (addW s.ip k).toNat)
      (s.mem.read ((addW s.ip k).toNat + 1))) := by
  simp [State.wordOperand, State.readWord, h]

/-- R81: the word field at offset `k`, where its read fails the check. -/
theorem State.wordOperand_error {s : State} {k : Nat}
    (h : s.wordReadable (addW s.ip k) = false) : s.wordOperand k = .error (addW s.ip k) := by
  simp [State.wordOperand, State.readWord, h]

/-- R78 to R85: everything a step that answers a next state can be. -/
theorem step_eq {s t : State} (h : step s = .next t) :
    s.cfg.wf = true ∧
      ((s.status = .halted ∨ s.status = .faulted) ∧ t = s ∨
        (s.status = .ready ∨ s.status = .running) ∧
          ((∃ a, s.outScan = some a ∧ t = (s.startRun.outFrom a).afterHandler) ∨
            s.outScan = none ∧
              ((∃ op, s.fetch = .unknown op ∧ t = s.startRun.unknownOpcode op) ∨
                (∃ a, s.fetch = .bounds a ∧ t = s.startRun.takeFault (.boundsFault a) s.ip) ∨
                ∃ i u, s.fetch = .instr i ∧ exec i s.startRun = .next u ∧
                  t = u.afterHandler))) := by
  have key : ∀ r : State, r = s.startRun → engineStep r = .next t →
      ((∃ a, s.outScan = some a ∧ t = (s.startRun.outFrom a).afterHandler) ∨
            s.outScan = none ∧
              ((∃ op, s.fetch = .unknown op ∧ t = s.startRun.unknownOpcode op) ∨
                (∃ a, s.fetch = .bounds a ∧ t = s.startRun.takeFault (.boundsFault a) s.ip) ∨
                ∃ i u, s.fetch = .instr i ∧ exec i s.startRun = .next u ∧
                  t = u.afterHandler)) := by
    rintro r rfl hr
    unfold engineStep at hr
    cases ho : s.outScan with
    | some a =>
      simp only [State.startRun_outScan, ho, finish, Host.Outcome.next.injEq] at hr
      exact .inl ⟨a, rfl, hr.symm⟩
    | none =>
      simp only [State.startRun_outScan, ho] at hr
      have hf : s.startRun.fetch = s.fetch := rfl
      rw [hf] at hr
      refine .inr ⟨rfl, ?_⟩
      cases h2 : s.fetch with
      | unknown op =>
        simp only [h2, Host.Outcome.next.injEq] at hr
        exact .inl ⟨op, rfl, hr.symm⟩
      | bounds a =>
        simp only [h2, Host.Outcome.next.injEq] at hr
        exact .inr (.inl ⟨a, rfl, hr.symm⟩)
      | instr i =>
        simp only [h2] at hr
        refine .inr (.inr ⟨i, ?_⟩)
        cases he : exec i s.startRun with
        | next u =>
          simp only [he, finish, Host.Outcome.next.injEq] at hr
          exact ⟨u, rfl, rfl, hr.symm⟩
        | fault f => simp [he, finish] at hr
        | refused f => simp [he, finish] at hr
  unfold step at h
  split at h
  · rename_i hw
    refine ⟨hw, ?_⟩
    cases hs : s.status with
    | ready =>
      simp only [hs] at h
      exact .inr ⟨.inl rfl, key s.startRun rfl h⟩
    | running =>
      simp only [hs] at h
      refine .inr ⟨.inr rfl, key s ?_ h⟩
      simp [State.startRun, ← hs]
    | halted =>
      simp only [hs, Host.Outcome.next.injEq] at h
      exact .inl ⟨.inl rfl, h.symm⟩
    | faulted =>
      simp only [hs, Host.Outcome.next.injEq] at h
      exact .inl ⟨.inr rfl, h.symm⟩
  · cases h

/-! ### Runs -/

/-- A run of `n + 1` steps is a step and a run of `n`. -/
theorem core_run_succ {n : Nat} {s t : State} (h : step s = .next t) :
    Sys2Proof.core.run (n + 1) s = Sys2Proof.core.run n t := by
  have h' : Sys2Proof.core.step s = .next t := h
  simp only [Host.Core.run, h']

/-- The first step of a run that answers a next state. -/
theorem first_step_of_run {n : Nat} {s t : State}
    (h : Sys2Proof.core.run (n + 1) s = .next t) :
    ∃ u : State, step s = .next u ∧ Sys2Proof.core.run n u = .next t := by
  simp only [Host.Core.run] at h
  split at h
  · rename_i u hu
    exact ⟨u, hu, h⟩
  · cases h
  · cases h

end Sys2Proof.Machine
end

