-- ==== Sys2Proof/Laws/PerInstr.lean ====
section
/-! SUPPORT. Facts about every instruction as syntax, one lemma per constructor: the bytes of an
instruction are as many as its row says, and they begin with its row's opcode byte
(spec/30_encoding.md R60, R61, R64, R65, R70). -/

/-- R60, R65, R70: in both operand orders of `write_byte`, an instruction's bytes are as many as its
opcode's length, at most five, and the first is its opcode's byte, which the table gives back. -/
def Sys2Proof.Laws.EncodedLength.Statement (i : Sys2Proof.Instr) : Prop :=
  ∀ order : Sys2Proof.WbOrder,
    (Sys2Proof.encode order i).length = i.opcode.length ∧
    i.opcode.length ≤ Sys2Proof.maxLength ∧
    (Sys2Proof.encode order i).head? = some i.opcode.byte ∧
    Sys2Proof.opcodeOf i.opcode.byte = some i.opcode

theorem Sys2Proof.Laws.EncodedLength.halt :
    Sys2Proof.Laws.EncodedLength.Statement .halt :=
  fun _ => ⟨rfl, by decide, rfl, rfl⟩

theorem Sys2Proof.Laws.EncodedLength.out (addr : Sys2Proof.Word) :
    Sys2Proof.Laws.EncodedLength.Statement (.out addr) :=
  fun _ => ⟨rfl, by simp only [Sys2Proof.Instr.opcode]; decide, rfl, rfl⟩

theorem Sys2Proof.Laws.EncodedLength.writeWord (value addr : Sys2Proof.Word) :
    Sys2Proof.Laws.EncodedLength.Statement (.writeWord value addr) :=
  fun _ => ⟨rfl, by simp only [Sys2Proof.Instr.opcode]; decide, rfl, rfl⟩

theorem Sys2Proof.Laws.EncodedLength.writeByte (value : Sys2Proof.Byte) (addr : Sys2Proof.Word) :
    Sys2Proof.Laws.EncodedLength.Statement (.writeByte value addr) := by
  intro order
  cases order <;> exact ⟨rfl, by simp only [Sys2Proof.Instr.opcode]; decide, rfl, rfl⟩

theorem Sys2Proof.Laws.EncodedLength.push (reg : Sys2Proof.RegIndex) :
    Sys2Proof.Laws.EncodedLength.Statement (.push reg) :=
  fun _ => ⟨rfl, by simp only [Sys2Proof.Instr.opcode]; decide, rfl, rfl⟩

theorem Sys2Proof.Laws.EncodedLength.pop (reg : Sys2Proof.RegIndex) :
    Sys2Proof.Laws.EncodedLength.Statement (.pop reg) :=
  fun _ => ⟨rfl, by simp only [Sys2Proof.Instr.opcode]; decide, rfl, rfl⟩

theorem Sys2Proof.Laws.EncodedLength.mov (value : Sys2Proof.Word) (reg : Sys2Proof.RegIndex) :
    Sys2Proof.Laws.EncodedLength.Statement (.mov value reg) :=
  fun _ => ⟨rfl, by simp only [Sys2Proof.Instr.opcode]; decide, rfl, rfl⟩

theorem Sys2Proof.Laws.EncodedLength.call (reg : Sys2Proof.RegIndex) :
    Sys2Proof.Laws.EncodedLength.Statement (.call reg) :=
  fun _ => ⟨rfl, by simp only [Sys2Proof.Instr.opcode]; decide, rfl, rfl⟩

theorem Sys2Proof.Laws.EncodedLength.ret :
    Sys2Proof.Laws.EncodedLength.Statement .ret :=
  fun _ => ⟨rfl, by decide, rfl, rfl⟩

theorem Sys2Proof.Laws.EncodedLength.input (ignored : Sys2Proof.Byte) :
    Sys2Proof.Laws.EncodedLength.Statement (.input ignored) :=
  fun _ => ⟨rfl, by simp only [Sys2Proof.Instr.opcode]; decide, rfl, rfl⟩

theorem Sys2Proof.Laws.EncodedLength.noop :
    Sys2Proof.Laws.EncodedLength.Statement .noop :=
  fun _ => ⟨rfl, by decide, rfl, rfl⟩
end

