-- ==== Sys2Proof/Tests/Slice0.lean ====
section
/-! SUPPORT. Tests, and witnesses that the hypotheses of the obligations can be met. Expected values
come from spec/95_test_vectors.md (the vector is named) or from the layouts of
spec/30_encoding.md R64, R65; never from the model's own answers. -/

namespace Sys2Proof.Tests

open Sys2Proof Sys2Proof.Machine

/-! ### WellFormed: each check refuses an ill-formed term -/

theorem test_wf_hardware : Config.hardware.wf = true := by decide
/-- R7: MEMSIZE below 2. -/
theorem test_wf_memsize_low : { Config.hardware with memSize := 1 }.wf = false := by decide
/-- R7: MEMSIZE above 65536. -/
theorem test_wf_memsize_high : { Config.hardware with memSize := 65537 }.wf = false := by decide
/-- R8: NREG below 4. -/
theorem test_wf_nreg_low : { Config.hardware with nreg := 3 }.wf = false := by decide
/-- R8: NREG above 16. -/
theorem test_wf_nreg_high : { Config.hardware with nreg := 17 }.wf = false := by decide
/-- R13: a budget of 0. -/
theorem test_wf_budget_zero : { Config.hardware with stepBudget := some 0 }.wf = false := by decide
/-- R62: a register index at NREG. -/
theorem test_wf_push : (Instr.push 4).wellFormed 4 = false := by decide
theorem test_wf_pop : (Instr.pop 4).wellFormed 4 = false := by decide
theorem test_wf_mov : (Instr.mov 0x1234 7).wellFormed 4 = false := by decide
theorem test_wf_call : (Instr.call 255).wellFormed 16 = false := by decide
/-- R62: the last valid index. -/
theorem test_wf_last_index : (Instr.mov 0x1234 15).wellFormed 16 = true := by decide

/-! ### Decoding: words written out from R64 and R65 -/

theorem test_decode_halt : decode .byteFirst [0x00] = .ok (.halt, []) := by rfl
theorem test_decode_out : decode .byteFirst [0x03, 0x01, 0x00] = .ok (.out 0x0100, []) := by rfl
theorem test_decode_write_word :
    decode .byteFirst [0x04, 0xAB, 0xCD, 0x7F, 0xFF] = .ok (.writeWord 0xABCD 0x7FFF, []) := by rfl
theorem test_decode_write_byte :
    decode .byteFirst [0x05, 0x11, 0xC0, 0x00] = .ok (.writeByte 0x11 0xC000, []) := by rfl
theorem test_decode_write_byte_word_first :
    decode .wordFirst [0x05, 0x00, 0x42, 0x99] = .ok (.writeByte 0x99 0x0042, []) := by rfl
theorem test_decode_push : decode .byteFirst [0x06, 0x02] = .ok (.push 2, []) := by rfl
theorem test_decode_pop : decode .byteFirst [0x07, 0xFF] = .ok (.pop 255, []) := by rfl
theorem test_decode_mov :
    decode .byteFirst [0x08, 0x12, 0x34, 0x01] = .ok (.mov 0x1234 1, []) := by rfl
theorem test_decode_call : decode .byteFirst [0x09, 0x03, 0x00] = .ok (.call 3, [0x00]) := by rfl
theorem test_decode_ret : decode .byteFirst [0x0A] = .ok (.ret, []) := by rfl
theorem test_decode_input : decode .byteFirst [0x0B, 0xFF] = .ok (.input 0xFF, []) := by rfl
theorem test_decode_noop : decode .byteFirst [0x90] = .ok (.noop, []) := by rfl
/-- V-DEC-10. -/
theorem test_decode_unknown :
    ([0x01, 0x02, 0x0C, 0x8F, 0x91, 0xFF].map opcodeOf : List (Option Opcode)) =
      [none, none, none, none, none, none] := by decide
/-- R76: `jmp 0x0100` is `08 01 00 00` (V-SM-15). -/
theorem test_jmp : encode .byteFirst (jmp 0x0100) = [0x08, 0x01, 0x00, 0x00] := by decide
/-- The table's bits: `04 12 34 01 00`, the first byte in bits 7 to 0. -/
theorem test_table_word_write_word :
    decodeTableWord 40 0x0001341204 = some (.writeWord 0x1234 0x0100) := by decide
/-- The bits above `nbits` are 0: a lone 0x09 is `call r0`. -/
theorem test_table_word_short : decodeTableWord 8 0xFF09 = some (.call 0) := by decide
theorem test_table_word_unknown : decodeTableWord 8 0x91 = none := by decide

/-! ### Steps on small states -/

/-- A Running state of this hardware with the given registers 0 to 3 and memory. -/
def at4 (ip sp bp gp : Word) (mem : Memory) : State :=
  { State.reset with regs := [ip, sp, bp, gp], mem := mem, status := .running }

/-- The next state has the property. -/
def after (o : Host.Outcome State Fault Refusal) (p : State → Bool) : Bool :=
  match o with
  | .next t => p t
  | .fault _ => false
  | .refused _ => false

/-- V-RS-1: reset. -/
theorem test_reset :
    State.reset.regs = [0x0000, 0x7FFF, 0x7FFF, 0x0000] ∧ State.reset.status = .ready ∧
    State.reset.mem.Wf State.reset.cfg.memSize := by decide

/-- V-RS-2: from reset, the halt at 0x0000. -/
theorem test_reset_runs_one_halt :
    after (step State.reset) (fun t => t.status = .halted && t.haltReason = some .explicit &&
      t.ip = 0x0001 && t.icount = 1 && t.mem = []) = true := by decide

/-- V-HN-1. -/
theorem test_halt :
    after (step (at4 0x0004 0x7FFF 0x7FFF 0 [])) (fun t => t.status = .halted && t.halted &&
      t.haltReason = some .explicit && t.ip = 0x0005 && t.icount = 1) = true := by decide

/-- V-HN-4: an explicit halt keeps its reason when the draw is true. -/
theorem test_halt_beats_timeout :
    after (step { at4 0 0x7FFF 0x7FFF 0 [] with timeoutAfter := 0 })
      (fun t => t.haltReason = some .explicit) = true := by decide

/-- V-HN-2. -/
theorem test_noop :
    after (step (at4 0x0010 0x7FFF 0x7FFF 9 [(0x10, 0x90)]))
      (fun t => t = { at4 0x0011 0x7FFF 0x7FFF 9 [(0x10, 0x90)] with
        icount := 1, timeoutAfter := Config.initialTimeoutAfter - 1 }) = true := by decide

/-- V-HN-5. -/
theorem test_noop_timeout :
    after (step { at4 0 0x7FFF 0x7FFF 0 [(0, 0x90)] with timeoutAfter := 0 })
      (fun t => t.status = .halted && t.haltReason = some .timeout && t.ip = 0x0001) = true := by
  decide

/-- V-WR-2: the low byte wraps to M[0]. -/
theorem test_write_word_wraps :
    after (exec (.writeWord 0xABCD 0x7FFF) (at4 0 0x7FFF 0x7FFF 0 [(0, 0x04)]))
      (fun t => t.mem = [(0, 0xCD), (0x7FFF, 0xAB)] && t.ip = 0x0005) = true := by decide

/-- V-MEM-9: the second byte is reduced from the unbounded sum. -/
theorem test_write_word_unbounded_sum :
    after (exec (.writeWord 0x1234 0xFFFF)
      { State.reset with cfg := { Config.hardware with memSize := 40000 } })
      (fun t => t.mem = [(0x63BF, 0x12), (0x63C0, 0x34)]) = true := by decide

/-- V-WR-3. -/
theorem test_write_byte :
    after (step (at4 0 0x7FFF 0x7FFF 0 [(0, 0x05), (1, 0x99), (3, 0x42)]))
      (fun t => t.mem = [(0, 0x05), (1, 0x99), (3, 0x42), (0x42, 0x99)] && t.ip = 0x0004)
      = true := by decide

/-- V-WR-11: WordFirst, the value byte read at 0x8000, that is M[0]. -/
theorem test_write_byte_word_first :
    after (step { at4 0x7FFD 0x7FFF 0x7FFF 0
        [(0, 0x77), (0x7FFD, 0x05), (0x7FFE, 0x12), (0x7FFF, 0x34)] with
        cfg := { Config.hardware with wbOrder := .wordFirst } })
      (fun t => t.mem.read 0x1234 = 0x77 && t.ip = 0x8001) = true := by decide

/-- V-SM-2: `push r1` stores the old stack pointer. -/
theorem test_push_sp :
    after (exec (.push 1) (at4 0 0x7FFF 0x7FFF 0 []))
      (fun t => t.mem = [(0x7FFD, 0x7F), (0x7FFE, 0xFF)] && t.sp = 0x7FFD) = true := by decide

/-- V-SM-3: `push r0` stores the advanced instruction pointer. -/
theorem test_push_ip :
    after (exec (.push 0) (at4 0x0010 0x7FFF 0x7FFF 0 []))
      (fun t => t.mem = [(0x7FFE, 0x12)]) = true := by decide

/-- V-SM-7: `pop r1` leaves the popped value plus 2. -/
theorem test_pop_sp :
    after (exec (.pop 1) (at4 0 0x1000 0x7FFF 0 [(0x1000, 0x12), (0x1001, 0x34)]))
      (fun t => t.sp = 0x1236 && t.ip = 0x0002) = true := by decide

/-- V-SM-17: an index at or above NREG. -/
theorem test_mov_illegal_register :
    after (exec (.mov 0x1234 7) (at4 0 0x7FFF 0x7FFF 5 []))
      (fun t => t.regs = [0x0004, 0x7FFF, 0x7FFF, 5] && t.status = .faulted &&
        t.faultRecord = some { kind := .illegalRegister 7, opcodeAddr := 0 }) = true := by decide

/-- V-SM-9: the bounds fault of a pop, with the pointer advanced. -/
theorem test_pop_bounds :
    after (exec (.pop 0) (at4 0 0x7FFF 0x7FFF 0 []))
      (fun t => t.ip = 0x0002 && t.sp = 0x7FFF && t.status = .faulted && !t.halted &&
        t.faultRecord = some { kind := .boundsFault 0x7FFF, opcodeAddr := 0 }) = true := by decide

/-- V-SM-16. -/
theorem test_mov_sp :
    after (exec (.mov 0x1234 1) (at4 0 0x7FFF 0x7FFF 0 []))
      (fun t => t.regs = [0x0004, 0x1234, 0x7FFF, 0]) = true := by decide

/-- V-CR-1. -/
theorem test_call :
    after (exec (.call 3) (at4 0x0004 0x7FFF 0x7FFF 0x0010 []))
      (fun t => t.mem = [(0x7FFB, 0x7F), (0x7FFC, 0xFF), (0x7FFE, 0x06)] &&
        t.regs = [0x0010, 0x7FFB, 0x7FFB, 0x0010]) = true := by decide

/-- V-CR-4: the target register is read last. -/
theorem test_call_sp :
    after (exec (.call 1) (at4 0x0004 0x7FFF 0x7FFF 0x0010 []))
      (fun t => t.regs = [0x7FFB, 0x7FFB, 0x7FFB, 0x0010]) = true := by decide

/-- V-CR-5, second step: the stack pointer ends at the popped base pointer. -/
theorem test_ret :
    after (exec .ret (at4 0x0100 0x6FFC 0x6FFC 0x0100 [(0x6FFC, 0x7F), (0x6FFF, 0x22)]))
      (fun t => t.regs = [0x0022, 0x7F00, 0x7F00, 0x0100]) = true := by decide

/-- V-CR-7: the second pop faults and the first pop's effects stay. -/
theorem test_ret_second_pop :
    after (exec .ret (at4 0 0x7FFD 0x7FFF 0 [(0x7FFD, 0x12), (0x7FFE, 0x34)]))
      (fun t => t.regs = [0x0001, 0x7FFF, 0x1234, 0] &&
        t.faultRecord = some { kind := .boundsFault 0x7FFF, opcodeAddr := 0 }) = true := by decide

/-- V-IO-3: addresses alias and wrap. -/
theorem test_out_wraps :
    after (exec (.out 0xFFFE) (at4 0x0100 0x7FFF 0x7FFF 0
        [(0, 0x43), (0x100, 0x03), (0x101, 0xFF), (0x102, 0xFE), (0x7FFE, 0x41), (0x7FFF, 0x42)]))
      (fun t => t.output = [.char 0x41, .char 0x42, .char 0x43] && t.ip = 0x0103 &&
        t.outScan = none) = true := by decide +kernel

/-- V-IO-2. -/
theorem test_out_empty :
    after (exec (.out 0x0100) (at4 0 0x7FFF 0x7FFF 0 []))
      (fun t => t.output = [] && t.ip = 0x0003) = true := by decide +kernel

/-- V-IO-7: the last four bytes land at the stack pointer. -/
theorem test_input_trailing_bytes :
    after (exec (.input 0) (at4 0x0010 0x7FFB 0x7FFB 0
        [(0x20FF, 0xFF), (0x2100, 0xA1), (0x2101, 0xA2), (0x2102, 0xA3), (0x2103, 0xA4)]))
      (fun t => t.mem.read 0x7EFB = 0x00 && t.mem.read 0x7FFA = 0xFF && t.mem.read 0x7FFB = 0xA1 &&
        t.mem.read 0x7FFE = 0xA4 && t.regs = [0x0012, 0x7FFB, 0x7FFB, 0]) = true := by
  decide +kernel

/-- V-IO-9 with a source of three bytes: an ascending copy onto itself repeats. -/
theorem test_input_overlap :
    after (exec (.input 0xFF) (at4 0x4000 0x2180 0x7FFF 0 [(0x2001, 0x01), (0x2003, 0x03)]))
      (fun t => t.mem.read 0x2081 = 0x01 && t.mem.read 0x2101 = 0x01 && t.mem.read 0x2183 = 0x03)
      = true := by decide +kernel

/-! ### The cycle -/

/-- V-DEC-2: an operand word past the top, although the opcode byte is reached by an alias. -/
theorem test_operand_word_not_aliased :
    after (step (at4 0x8000 0x7FFF 0x7FFF 0 [(0, 0x08), (1, 0x12), (2, 0x34), (3, 0x03)]))
      (fun t => t.regs = [0x8000, 0x7FFF, 0x7FFF, 0] && t.icount = 0 &&
        t.faultRecord = some { kind := .boundsFault 0x8001, opcodeAddr := 0x8000 }) = true := by
  decide

/-- V-DEC-7. -/
theorem test_unknown_opcode :
    after (step (at4 0x0010 0x7FFF 0x7FFF 0 [(0x10, 0x01)]))
      (fun t => t.output = [.diag 0x01 0x0010] && t.haltReason = some .unknownOpcode &&
        t.ip = 0x0010 && t.icount = 0) = true := by decide

/-- V-DEC-9. -/
theorem test_budget :
    after (step { at4 0 0x7FFF 0x7FFF 0 [(0, 0x90)] with
        cfg := { Config.hardware with stepBudget := some 1 } })
      (fun t => t.haltReason = some .timeout && t.ip = 0x0001 && t.icount = 1) = true := by decide

/-- The host's load of one instruction is what the next step runs: `08 12 34 03`. -/
theorem test_with_fetch_word :
    after (step (State.reset.withFetchWord 32 0x03341208)) (fun t => t.getReg 3 = 0x1234) = true := by
  decide

/-- V-RS-7: a block wraps. -/
theorem test_load_program_wraps :
    after (State.reset.loadProgram 0x7FFE [0x0A, 0x0B, 0x0C, 0x0D] "p")
      (fun t => t.mem = [(0, 0x0C), (1, 0x0D), (0x7FFE, 0x0A), (0x7FFF, 0x0B)] &&
        t.ip = 0x7FFE) = true := by decide

/-- V-RS-6: auto-placement inside an earlier block. -/
theorem test_load_data_auto :
    after (State.loadData { State.reset with segments := [⟨"a", 0x0005, 10⟩] } 0 [1, 2, 3, 4] "b")
      (fun t => t.segments = [⟨"a", 0x0005, 10⟩, ⟨"b", 0x000A, 4⟩] && t.ip = 0) = true := by decide

/-! ### Witnesses: the hypotheses of each obligation that has any can be met, for each clause and at
boundary values -/

/-- A Running state with one instruction's bytes at 0x0100. -/
def running (bytes : Memory) : State := at4 0x0100 0x7FF0 0x7FFF 0x0010 bytes

/-- A state ended by a timeout. -/
def ended : State :=
  { State.reset with halted := true, status := .halted, haltReason := some .timeout }

/-- A state that crashed. -/
def crashed : State :=
  { State.reset with
    status := .faulted
    faultRecord := some { kind := .boundsFault 0x7FFF, opcodeAddr := 0x7FFE } }

/-- Three bytes of memory, none of them zero: `out 0x0101` at 0x0000. -/
def allNonzero : State :=
  { State.reset with
    cfg := { Config.hardware with memSize := 3 }
    mem := [(0, 0x03), (1, 0x01), (2, 0x01)] }

/-- The same with an uncompleted `out`. -/
def scanning : State := { allNonzero with status := .running, outScan := some 0x0101 }

theorem allNonzero_byte (j : Nat) (h : j < 3) : allNonzero.mem.read j ≠ 0 := by
  have : ∀ j < 3, allNonzero.mem.read j ≠ 0 := by decide
  exact this j h

theorem allNonzero_readByte (a : Word) : allNonzero.readByte a ≠ 0 :=
  allNonzero_byte _ (State.phys_lt (s := allNonzero) (by decide) _)

theorem witness_RegisterFileReadsWhatWasWritten :
    State.reset.Wf ∧ 0 < State.reset.cfg.nreg ∧ 3 < State.reset.cfg.nreg := by decide

theorem witness_ByteAccessWrapsModuloMemsize : (running [(0x100, 0x90)]).Wf := by decide

theorem witness_WordReadFaultsAtTheTop :
    State.reset.Wf ∧ (0x7FFE : Word).toNat + 1 < State.reset.cfg.memSize ∧
    State.reset.cfg.memSize ≤ (0x7FFF : Word).toNat + 1 ∧
    State.reset.cfg.memSize ≤ (0xFFFF : Word).toNat + 1 := by decide

theorem witness_WordWriteIsBigEndianAndWraps :
    State.reset.Wf ∧ (0x7FFE : Word).toNat + 1 < State.reset.cfg.memSize ∧
    (0xFFFE : Word).toNat + 1 < 65536 ∧
    (0x7FFF : Word).toNat + 1 = State.reset.cfg.memSize := by decide

theorem witness_EncodeOfDecodeIsTheBytes :
    decode .wordFirst [0x05, 0x00, 0x42, 0x99, 0x90] = .ok (.writeByte 0x99 0x0042, [0x90]) := by
  rfl

theorem witness_DecoderIsTotalOnOpcodes :
    (∀ op ∈ ([0x01, 0x02, 0x0C, 0x8F, 0x91, 0xFF] : List Byte),
      op = 0x01 ∨ op = 0x02 ∨ (0x0C ≤ op.toNat ∧ op.toNat ≤ 0x8F) ∨ 0x91 ≤ op.toNat) ∧
    ∀ op ∈ ([0x00, 0x03, 0x0B, 0x90] : List Byte),
      ¬ (op = 0x01 ∨ op = 0x02 ∨ (0x0C ≤ op.toNat ∧ op.toNat ≤ 0x8F) ∨ 0x91 ≤ op.toNat) := by
  decide

/-- The operand word of a `mov` at 0x7FFD is the last one that can be read. -/
theorem witness_StepRunsTheDecodedInstruction :
    let s := at4 0x7FFD 0x7FFF 0x7FFF 0
      [(0, 0x03), (0x7FFD, 0x08), (0x7FFE, 0x12), (0x7FFF, 0x34)]
    s.Wf ∧ s.Fetches ∧ s.OperandsReadable .mov ∧
    (∃ rest, decode s.cfg.wbOrder s.instrBytes = .ok (.mov 0x1234 3, rest)) ∧
    ∃ t, exec (.mov 0x1234 3) s.startRun = .next t :=
  ⟨by decide, by decide, by decide, ⟨_, rfl⟩, ⟨_, rfl⟩⟩

/-- V-DEC-5 and V-WR-9: the first and the second operand word. -/
theorem witness_UnreadableOperandWordFaultsInDecode :
    (let s := at4 0x7FFE 0x7FFF 0x7FFF 0 [(0x7FFE, 0x03)]
     s.Wf ∧ s.Fetches ∧ opcodeOf (s.readByte s.ip) = some .out ∧
     (Opcode.out.wordOffsets s.cfg.wbOrder).find?
      (fun k => decide (s.cfg.memSize ≤ (addW s.ip k).toNat + 1)) = some 1) ∧
    (let s := at4 0x7FFC 0x7FFF 0x7FFF 0 [(0x7FFC, 0x04)]
     s.Wf ∧ s.Fetches ∧ opcodeOf (s.readByte s.ip) = some .writeWord ∧
     (Opcode.writeWord.wordOffsets s.cfg.wbOrder).find?
      (fun k => decide (s.cfg.memSize ≤ (addW s.ip k).toNat + 1)) = some 3) := by decide

theorem witness_UnknownOpcodeHalts :
    ∀ op ∈ ([0x01, 0x02, 0x0C, 0x8F, 0x91, 0xFF] : List Byte),
      let s := running [(0x100, op)]
      s.Wf ∧ s.Fetches ∧ (s.readByte s.ip = 0x01 ∨ s.readByte s.ip = 0x02 ∨
        (0x0C ≤ (s.readByte s.ip).toNat ∧ (s.readByte s.ip).toNat ≤ 0x8F) ∨
        0x91 ≤ (s.readByte s.ip).toNat) := by decide

/-- The five clauses: a timeout by a draw and by a budget, none, an explicit halt, a fault. -/
theorem witness_BoundaryCountsAndTimesOut :
    (let s := { running [(0x100, 0x90)] with timeoutAfter := 0 }
     s.Wf ∧ s.Fetches ∧ s.fetch = .instr .noop ∧ s.TimesOut ∧
     ∃ t, exec .noop s.startRun = .next t ∧ t.status = .running ∧ t.outScan = none) ∧
    (let s := { running [(0x100, 0x90)] with
                cfg := { Config.hardware with stepBudget := some 1 } }
     s.Wf ∧ s.TimesOut) ∧
    (let s := running [(0x100, 0x90)]
     s.Wf ∧ s.Fetches ∧ s.fetch = .instr .noop ∧ ¬ s.TimesOut ∧
     ∃ t, exec .noop s.startRun = .next t ∧ t.status = .running ∧ t.outScan = none) ∧
    (let s := State.reset
     s.Wf ∧ s.Fetches ∧ s.fetch = .instr .halt ∧
     ∃ t, exec .halt s.startRun = .next t ∧ t.status = .halted) ∧
    (let s := running [(0x100, 0x07), (0x101, 0x04)]
     s.Wf ∧ s.Fetches ∧ s.fetch = .instr (.pop 4) ∧
     ∃ t, exec (.pop 4) s.startRun = .next t ∧ t.status = .faulted) :=
  ⟨⟨by decide, by decide, by decide, .inl rfl, _, rfl, rfl, rfl⟩,
   ⟨by decide, .inr ⟨1, rfl, by decide⟩⟩,
   ⟨by decide, by decide, by decide, (by rintro (h | ⟨n, h, -⟩) <;> cases h), _, rfl, rfl, rfl⟩,
   ⟨by decide, by decide, by decide, _, rfl, rfl⟩,
   ⟨by decide, by decide, by decide, _, rfl, rfl⟩⟩

/-- The last clause: an `out` that does not complete. -/
theorem witness_BoundaryCountsAndTimesOut_out :
    allNonzero.Wf ∧ allNonzero.Fetches ∧ allNonzero.fetch = .instr (.out 0x0101) ∧
    ∃ t, exec (.out 0x0101) allNonzero.startRun = .next t ∧ t.outScan ≠ none := by
  refine ⟨by decide, by decide, by decide, _, rfl, ?_⟩
  rcases State.outFrom_eq (allNonzero.startRun.advance .out) 0x0101 with ⟨k, -, hz, -⟩ | ⟨-, e⟩
  · exact absurd hz (allNonzero_readByte _)
  · rw [e]; exact nofun

theorem witness_TerminalStatusesDoNothing :
    (ended.Wf ∧ ended.Ended) ∧ crashed.Wf ∧ crashed.Crashed := by decide

theorem witness_RunOnEndedBlockReturnsAtOnce :
    (ended.Wf ∧ ended.Ended) ∧ crashed.Wf ∧ crashed.Crashed := by decide

theorem witness_RunReturnsOneObservation : ∃ o, State.reset.RunReturns o :=
  ⟨_, 1, _, rfl, .inl rfl, rfl⟩

theorem witness_HaltedFlagIsNeverCleared :
    (∃ t, step ended = .next t) ∧ ended.halted = true ∧ ended.haltReason = some .timeout :=
  ⟨⟨_, rfl⟩, rfl, rfl⟩

theorem witness_StatusFollowsTheStateMachine :
    State.reset.Wf ∧ (∃ t, step State.reset = .next t) ∧
    ended.Wf ∧ (∃ t, step ended = .next t) ∧ ended.status = .halted ∧
    crashed.Wf ∧ (∃ t, step crashed = .next t) ∧ crashed.status = .faulted :=
  ⟨by decide, ⟨_, rfl⟩, by decide, ⟨_, rfl⟩, rfl, by decide, ⟨_, rfl⟩, rfl⟩

theorem witness_StepAlwaysHasANextState : State.reset.cfg.wf = true := by decide

/-- One state for each way a step can end: still Running, an explicit halt, an unknown opcode, a
timeout, a bounds fault and a register-index fault. -/
theorem witness_ExecutionEndsInOneOfFiveWays :
    (let s := running [(0x100, 0x90)]
     s.Wf ∧ s.Fetches ∧ after (step s) (fun t => t.status = .running) = true) ∧
    (let s := running []
     s.Wf ∧ s.Fetches ∧ after (step s) (fun t => t.haltReason = some .explicit) = true) ∧
    (let s := running [(0x100, 0x91)]
     s.Wf ∧ s.Fetches ∧ after (step s) (fun t => t.haltReason = some .unknownOpcode) = true) ∧
    (let s := { running [(0x100, 0x90)] with timeoutAfter := 0 }
     s.Wf ∧ s.Fetches ∧ after (step s) (fun t => t.haltReason = some .timeout) = true) ∧
    (let s := at4 0x0100 0x7FFF 0x7FFF 0 [(0x100, 0x0A)]
     s.Wf ∧ s.Fetches ∧ after (step s) (fun t => t.status = .faulted) = true) ∧
    (let s := running [(0x100, 0x09), (0x101, 0x04)]
     s.Wf ∧ s.Fetches ∧ after (step s) (fun t => t.status = .faulted) = true) :=
  ⟨by decide, by decide, by decide, by decide, by decide, by decide⟩

theorem witness_HandlersRaiseOnlyTheirFaults :
    State.reset.status ≠ .faulted ∧
    ∃ t, exec (.mov 0x1234 4) State.reset = .next t ∧ t.status = .faulted :=
  ⟨by decide, _, rfl, rfl⟩

theorem witness_StepKeepsTheInvariant : State.reset.Wf ∧ ∃ t, step State.reset = .next t :=
  ⟨by decide, _, rfl⟩

/-- The least and the greatest parameters, without and with an initial program. -/
theorem witness_ConstructionEstablishesTheInvariant :
    { Config.hardware with memSize := 2, nreg := 4, stepBudget := some 1 }.wf = true ∧
    { Config.hardware with memSize := 65536, nreg := 16 }.wf = true ∧
    (∃ t, construct { Config.hardware with memSize := 2, stepBudget := some 1 } 0 none = .next t) ∧
    ∃ t, construct { Config.hardware with memSize := 65536, nreg := 16 } 3 (some [0x90, 0x00]) =
      .next t :=
  ⟨by decide, by decide, ⟨_, rfl⟩, _, rfl⟩

theorem witness_ConstructMakesTheInitialState :
    { Config.hardware with memSize := 65536, nreg := 16, gpInit := 0xBEEF }.wf = true ∧
    3 ≤ 15 ∧ 15 < { Config.hardware with nreg := 16 }.nreg := by decide

theorem witness_ConstructRefusesParametersOutOfRange :
    { Config.hardware with memSize := 65537 }.wf = false := by decide

theorem witness_StepKeepsWithinTheBudget :
    let s := State.initial { Config.hardware with stepBudget := some 1 }
    s.Wf ∧ s.WithinBudget ∧ ∃ t, step s = .next t :=
  ⟨by decide, by rintro n ⟨⟩; exact ⟨by decide, fun _ => by decide⟩, _, rfl⟩

theorem witness_ConstructionIsWithinTheBudget :
    { Config.hardware with stepBudget := some 1 }.wf = true ∧
    ∃ t, construct { Config.hardware with stepBudget := some 1 } 0 (some [0x90]) = .next t :=
  ⟨by decide, _, rfl⟩

/-- A true draw at the next boundary, and after two false ones. -/
theorem witness_ATrueTimeoutDrawEndsTheRun :
    (let s := { running [(0x100, 0x90)] with timeoutAfter := 0 }
     s.Wf ∧ s.Fetches) ∧
    (let s := { running [(0x100, 0x90)] with timeoutAfter := 2 }
     s.Wf ∧ s.Fetches) := by decide

/-- A sequence of draws that is true at every other boundary. -/
theorem witness_TimeoutDrawsAreFair : ∃ k, (fun n => n % 2 == 1) k = true := ⟨1, rfl⟩

/-- The same block with other control state, and with another halt reason recorded. -/
theorem witness_InstructionsIgnoreControlState :
    let s := State.reset
    let s' := { ended with icount := 7, output := [.char 0x41] }
    s'.cfg = s.cfg ∧ s'.regs = s.regs ∧ s'.mem = s.mem ∧ (∃ t, exec .halt s = .next t) ∧
      s'.haltReason ≠ s.haltReason ∧ ({ s' with haltReason := none }).haltReason = s.haltReason :=
  ⟨rfl, rfl, rfl, ⟨_, rfl⟩, by decide, rfl⟩

theorem witness_SegmentsAreNeverConsulted : ∃ t, step (running [(0x100, 0x90)]) = .next t :=
  ⟨_, rfl⟩

theorem witness_OutputIsAppendOnly : ∃ t, step (running [(0x100, 0x01)]) = .next t := ⟨_, rfl⟩

/-- V-WR-6, and the same with a byte outside the table. -/
theorem witness_NextFetchSeesTheStore :
    (let s := at4 0 0x7FFF 0x7FFF 0 [(0, 0x05), (3, 0x04), (4, 0x90)]
     s.Wf ∧ s.Fetches ∧ s.fetch = .instr (.writeByte 0x00 0x0004) ∧
     ∃ t, step s = .next t ∧ s.phys t.ip.toNat = s.phys (0x0004 : Word).toNat) ∧
    (let s := at4 0 0x7FFF 0x7FFF 0 [(0, 0x05), (1, 0x91), (2, 0x80), (3, 0x04), (4, 0x90)]
     s.Wf ∧ s.Fetches ∧ s.fetch = .instr (.writeByte 0x91 0x8004) ∧ opcodeOf 0x91 = none ∧
     ∃ t, step s = .next t ∧ s.phys t.ip.toNat = s.phys (0x8004 : Word).toNat) :=
  ⟨⟨by decide, by decide, by decide, _, rfl, by decide⟩,
   ⟨by decide, by decide, by decide, by decide, _, rfl, by decide⟩⟩

/-- V-SM-22: a `push` over the next opcode, and a byte outside the table. -/
theorem witness_NextFetchReadsWhatTheHandlerLeft :
    let s := at4 0 0x0004 0x7FFF 0 [(0, 0x06), (1, 0x03), (2, 0x90), (3, 0x90)]
    s.Wf ∧ s.Fetches ∧ s.fetch = .instr (.push 3) ∧
    ∃ u t, exec (.push 3) s.startRun = .next u ∧ step s = .next t ∧ t.Fetches ∧
      t.OperandsReadable .halt ∧
      (∃ rest, decode s.cfg.wbOrder ((List.range maxLength).map fun k =>
        u.mem.read (s.phys (addW u.ip k).toNat)) = .ok (.halt, rest)) :=
  ⟨by decide, by decide, by decide, _, _, rfl, rfl, by decide, by decide, _, rfl⟩

theorem witness_NextFetchReadsWhatTheHandlerLeft_unknown :
    let s := at4 0 0x0004 0x7FFF 0x9100 [(0, 0x06), (1, 0x03), (2, 0x90), (3, 0x90)]
    s.Wf ∧ s.Fetches ∧ s.fetch = .instr (.push 3) ∧
    ∃ u t, exec (.push 3) s.startRun = .next u ∧ step s = .next t ∧ t.Fetches ∧
      opcodeOf (u.mem.read (s.phys u.ip.toNat)) = none :=
  ⟨by decide, by decide, by decide, _, _, rfl, rfl, by decide, by decide⟩

theorem witness_HaltStopsTheEngine :
    State.reset.Wf ∧ State.reset.haltReason = none ∧
    ended.Wf ∧ ended.haltReason = some .timeout := by decide

theorem witness_NoopOnlyAdvances : (running []).Wf := by decide

theorem witness_WriteWordStoresTheWord : (running [(0x100, 0x04)]).Wf := by decide

/-- Its decode clauses: V-WR-9's second operand word, and the first at 0x7FFE. -/
theorem witness_WriteWordStoresTheWord_decode :
    (let s := at4 0x7FFE 0x7FFF 0x7FFF 0 [(0x7FFE, 0x04)]
     s.Wf ∧ s.Fetches ∧ s.readByte s.ip = 0x04 ∧ s.cfg.memSize ≤ (addW s.ip 1).toNat + 1) ∧
    (let s := at4 0x7FFC 0x7FFF 0x7FFF 0 [(0x7FFC, 0x04)]
     s.Wf ∧ s.Fetches ∧ s.readByte s.ip = 0x04 ∧ (addW s.ip 1).toNat + 1 < s.cfg.memSize ∧
     s.cfg.memSize ≤ (addW s.ip 3).toNat + 1) := by decide

theorem witness_WriteByteStoresTheByte : (running [(0x100, 0x05)]).Wf := by decide

/-- Its decode clause: V-WR-10, and WordFirst one byte higher. -/
theorem witness_WriteByteStoresTheByte_decode :
    (let s := at4 0x7FFD 0x7FFF 0x7FFF 0 [(0x7FFD, 0x05)]
     s.Wf ∧ s.Fetches ∧ s.readByte s.ip = 0x05 ∧
     s.cfg.memSize ≤ (addW s.ip (if s.cfg.wbOrder = .byteFirst then 2 else 1)).toNat + 1) ∧
    (let s := { at4 0x7FFE 0x7FFF 0x7FFF 0 [(0x7FFE, 0x05)] with
                cfg := { Config.hardware with wbOrder := .wordFirst } }
     s.Wf ∧ s.Fetches ∧ s.readByte s.ip = 0x05 ∧
     s.cfg.memSize ≤ (addW s.ip (if s.cfg.wbOrder = .byteFirst then 2 else 1)).toNat + 1) := by
  decide

theorem witness_PushStoresTheRegisterBelowTheStack :
    State.reset.Wf ∧ (3 : RegIndex).toNat < State.reset.cfg.nreg ∧
    State.reset.cfg.nreg ≤ (4 : RegIndex).toNat := by decide

/-- The last stack pointer that can be popped, and the first that cannot. -/
theorem witness_PopLoadsTheRegisterFromTheStack :
    (let s := at4 0 0x7FFE 0x7FFF 0 []
     s.Wf ∧ (3 : RegIndex).toNat < s.cfg.nreg ∧ s.sp.toNat + 1 < s.cfg.memSize) ∧
    (let s := State.reset
     s.Wf ∧ (1 : RegIndex).toNat < s.cfg.nreg ∧ s.cfg.memSize ≤ s.sp.toNat + 1 ∧
     s.cfg.nreg ≤ (4 : RegIndex).toNat) := by decide

theorem witness_MovLoadsTheImmediate :
    State.reset.Wf ∧ (3 : RegIndex).toNat < State.reset.cfg.nreg ∧
    State.reset.cfg.nreg ≤ (4 : RegIndex).toNat := by decide

/-- Its decode clause: V-EX-2. -/
theorem witness_MovLoadsTheImmediate_decode :
    let s := at4 0x7FFE 0x7FFF 0x7FFF 0 [(0x7FFE, 0x08)]
    s.Wf ∧ s.Fetches ∧ s.readByte s.ip = 0x08 ∧ s.cfg.memSize ≤ (addW s.ip 1).toNat + 1 := by
  decide

theorem witness_CallPushesTheFrameAndJumps :
    State.reset.Wf ∧ (3 : RegIndex).toNat < State.reset.cfg.nreg ∧
    State.reset.cfg.nreg ≤ (4 : RegIndex).toNat := by decide

theorem witness_RetPopsTheFrame :
    (State.reset.Wf ∧ State.reset.cfg.memSize ≤ State.reset.sp.toNat + 1) ∧
    (let s := at4 0 0x7FFD 0x7FFF 0 []
     s.Wf ∧ s.sp.toNat + 1 < s.cfg.memSize ∧ s.cfg.memSize ≤ (addW s.sp 2).toNat + 1) ∧
    (let s := at4 0 0x7FFE 0x7FFF 0 []
     s.Wf ∧ s.sp.toNat + 1 < s.cfg.memSize ∧ s.cfg.memSize ≤ (addW s.sp 2).toNat + 1) ∧
    (let s := at4 0 0x7FFC 0x7FFF 0 []
     s.Wf ∧ s.sp.toNat + 1 < s.cfg.memSize ∧ (addW s.sp 2).toNat + 1 < s.cfg.memSize) :=
  ⟨by decide, by decide, by decide, by decide⟩

/-- k = 0, and the case in which no byte of memory is zero. -/
theorem witness_OutAppendsTheString :
    (State.reset.Wf ∧ State.reset.readByte (addW 0x0100 0) = 0 ∧
      ∀ m, m < 0 → State.reset.readByte (addW 0x0100 m) ≠ 0) ∧
    allNonzero.Wf ∧ ∀ m, m < 65536 → allNonzero.readByte (addW 0x0101 m) ≠ 0 :=
  ⟨⟨by decide, by decide, nofun⟩, by decide, fun _ _ => allNonzero_readByte _⟩

/-- 65536 bytes of memory, of which the first n alone are not zero. -/
def firstOnes (n : Nat) : State :=
  { State.reset with
    cfg := { Config.hardware with memSize := 65536 }
    mem := (List.range n).map fun j => (j, 1) }

theorem read_map_one (l : List Nat) (j : Nat) :
    Memory.read (l.map fun j => (j, 1)) j = if j ∈ l then 1 else 0 := by
  induction l with
  | nil => rfl
  | cons i l ih =>
    simp only [List.map_cons, Memory.read, ih, List.mem_cons]
    by_cases h : i = j
    · simp [h]
    · simp [h, Ne.symm h]

theorem firstOnes_readByte (n m : Nat) (hm : m < 65536) :
    (firstOnes n).readByte (addW 0 m) = if m < n then (1 : Byte) else 0 := by
  have e : (firstOnes n).readByte (addW 0 m) =
      Memory.read ((List.range n).map fun j => (j, 1)) ((addW 0 m).toNat % 65536) := rfl
  have a : (addW 0 m).toNat % 65536 = m := by
    rw [addW, show (0 : Word) = 0#16 from rfl, BitVec.zero_add, BitVec.toNat_ofNat]; omega
  rw [e, a, read_map_one]
  simp only [List.mem_range]

theorem firstOnes_wf (n : Nat) (hn : n ≤ 65536) : (firstOnes n).Wf := by
  refine ⟨rfl, rfl, ⟨?_, ?_⟩, by simp [firstOnes, State.reset, State.initial],
    by simp [firstOnes, State.reset, State.initial], by simp [firstOnes, State.reset, State.initial],
    by simp [firstOnes, State.reset, State.initial]⟩
  · show List.Pairwise _ ((List.range n).map fun j => ((j, 1) : Host.Cell))
    rw [List.pairwise_map]
    exact List.pairwise_lt_range
  · intro c hc
    have hc : c ∈ (List.range n).map fun j => ((j, 1) : Host.Cell) := hc
    rw [List.mem_map] at hc
    obtain ⟨j, hj, rfl⟩ := hc
    have hj := List.mem_range.1 hj
    exact ⟨Nat.lt_of_lt_of_le hj hn, (by decide : (1 : Byte) ≠ 0)⟩

/-- k = 65535, the longest string. -/
theorem witness_OutAppendsTheString_longest :
    (firstOnes 65535).Wf ∧ (firstOnes 65535).readByte (addW 0 65535) = 0 ∧
    ∀ m, m < 65535 → (firstOnes 65535).readByte (addW 0 m) ≠ 0 := by
  refine ⟨firstOnes_wf _ (by omega), ?_, fun m hm => ?_⟩
  · rw [firstOnes_readByte _ _ (by omega), if_neg (by omega)]
  · rw [firstOnes_readByte _ _ (by omega), if_pos hm]
    decide

/-- Its decode clause: V-DEC-5. -/
theorem witness_OutAppendsTheString_decode :
    let s := at4 0x7FFE 0x7FFF 0x7FFF 0 [(0x7FFE, 0x03)]
    s.Wf ∧ s.Fetches ∧ s.readByte s.ip = 0x03 ∧ s.cfg.memSize ≤ (addW s.ip 1).toNat + 1 := by
  decide

theorem witness_OutCompletesIffSomeByteIsZero :
    allNonzero.Wf ∧ ∃ t, exec (.out 0x0101) allNonzero = .next t := ⟨by decide, _, rfl⟩

theorem witness_CompletedOutIsBounded :
    State.reset.Wf ∧ 65536 % State.reset.cfg.memSize = 0 ∧
    ∃ t, exec (.out 0x0100) State.reset = .next t ∧ t.outScan = none := by
  refine ⟨by decide, by decide, _, rfl, ?_⟩
  rcases State.outFrom_eq (State.reset.advance .out) 0x0100 with ⟨k, -, -, -, e⟩ | ⟨h, -⟩
  · rw [e]
  · exact absurd (by decide) (h 0 (by decide))

theorem witness_DivergingOutNeverReachesABoundary :
    scanning.Wf ∧ scanning.outScan = some 0x0101 ∧ ¬ scanning.HasZeroByte :=
  ⟨by decide, by decide, fun ⟨j, hj, hz⟩ => allNonzero_byte j hj hz⟩

theorem witness_UncompletedOutMeansNoZeroByte :
    scanning.Wf ∧ (scanning.outScan ≠ none → ¬ scanning.HasZeroByte) ∧
    ∃ t, step scanning = .next t :=
  ⟨by decide, fun _ ⟨j, hj, hz⟩ => allNonzero_byte j hj hz, _, rfl⟩

theorem witness_InputCopiesAscending : (at4 0 0x0080 0x7FFF 0 [(0, 0x0B)]).Wf := by decide

/-- The hypotheses of Obligations.InputCopiesTheBlockWhenApart. -/
abbrev InputCopiesTheBlockWhenApartMet (s : State) : Prop :=
  s.Wf ∧ 0x2104 ≤ s.cfg.memSize ∧ 256 ≤ s.sp.toNat ∧ s.sp.toNat + 4 ≤ s.cfg.memSize ∧
  (s.sp.toNat + 4 ≤ 0x2000 ∨ 0x2104 + 256 ≤ s.sp.toNat)

/-- The lowest and the highest stack pointer, and the two nearest the source block. -/
theorem witness_InputCopiesTheBlockWhenApart :
    InputCopiesTheBlockWhenApartMet (at4 0 0x0100 0x7FFF 0 [(0x2000, 0x41)]) ∧
    InputCopiesTheBlockWhenApartMet (at4 0 0x1FFC 0x7FFF 0 [(0x2000, 0x41)]) ∧
    InputCopiesTheBlockWhenApartMet (at4 0 0x2204 0x7FFF 0 [(0x2000, 0x41)]) ∧
    InputCopiesTheBlockWhenApartMet (at4 0 0x7FFC 0x7FFF 0 [(0x2000, 0x41)]) :=
  ⟨by decide, by decide, by decide, by decide⟩

/-- The hypotheses of Obligations.PushThenPopTransfersTheValue. -/
abbrev PushThenPopTransfersTheValueMet (s : State) : Prop :=
  s.Wf ∧ (3 : RegIndex).toNat < s.cfg.nreg ∧ (2 : RegIndex).toNat < s.cfg.nreg ∧
  (2 : RegIndex) ≠ 1 ∧ (subW s.sp 2).toNat + 1 < s.cfg.memSize

/-- The lowest stack pointer, the highest, and one past the top of memory. -/
theorem witness_PushThenPopTransfersTheValue :
    PushThenPopTransfersTheValueMet (at4 0 0x0002 0x7FFF 0xBEEF []) ∧
    PushThenPopTransfersTheValueMet (at4 0 0x7FFF 0x7FFF 0xBEEF []) ∧
    PushThenPopTransfersTheValueMet (at4 0 0x8000 0x7FFF 0xBEEF []) :=
  ⟨by decide, by decide, by decide⟩

/-- V-CR-1 and V-CR-2, with the `ret` made in the state the call left. -/
theorem witness_RetReturnsToTheCaller :
    let s := at4 0x0004 0x7FFF 0x7FFF 0x0010 []
    ∃ t, exec (.call 3) s = .next t ∧ s.Wf ∧ (3 : RegIndex).toNat < s.cfg.nreg ∧ t.Wf ∧
      t.cfg = s.cfg ∧ (subW s.sp 4).toNat + 1 < s.cfg.memSize ∧
      (subW s.sp 2).toNat + 1 < s.cfg.memSize :=
  ⟨_, rfl, by decide, by decide, by decide, by decide, by decide, by decide⟩

/-- The hypotheses of Obligations.InputAfterCallHijacksTheReturn. -/
abbrev InputAfterCallHijacksTheReturnMet (s : State) : Prop :=
  s.Wf ∧ (3 : RegIndex).toNat < s.cfg.nreg ∧ 0x2104 ≤ s.cfg.memSize ∧ 260 ≤ s.sp.toNat ∧
  s.sp.toNat ≤ s.cfg.memSize ∧ (s.sp.toNat ≤ 0x2000 ∨ 0x2104 + 260 ≤ s.sp.toNat)

/-- The lowest and the highest stack pointer, and the two nearest the source block. -/
theorem witness_InputAfterCallHijacksTheReturn :
    InputAfterCallHijacksTheReturnMet (at4 0x0004 0x0104 0x7FFF 0x0010 [(0x2100, 0x12)]) ∧
    InputAfterCallHijacksTheReturnMet (at4 0x0004 0x2000 0x7FFF 0x0010 [(0x2100, 0x12)]) ∧
    InputAfterCallHijacksTheReturnMet (at4 0x0004 0x2208 0x7FFF 0x0010 [(0x2100, 0x12)]) ∧
    InputAfterCallHijacksTheReturnMet (at4 0x0004 0x8000 0x7FFF 0x0010 [(0x2100, 0x12)]) :=
  ⟨by decide, by decide, by decide, by decide⟩

/-- A byte that no later byte of the block overwrites, and a physical byte
outside the block (V-RS-7's block). -/
theorem witness_LoadProgramPlacesTheBlock :
    let s := State.reset
    s.Wf ∧ s.status = .ready ∧
    (∀ k < 4, 3 < k → s.phys (addW 0x7FFE k).toNat ≠ s.phys (addW 0x7FFE 3).toNat) ∧
    ∀ i < 4, s.phys (addW 0x7FFE i).toNat ≠ 2 := by decide

/-- The same for LoadData, at an address of its own and auto-placed. -/
theorem witness_LoadDataPlacesTheBlock :
    let s := State.reset
    s.Wf ∧ s.status = .ready ∧ (0x0005 : Word) ≠ 0 ∧
    (∀ k < 4, 0 < k → s.phys (addW 0x0005 k).toNat ≠ s.phys (addW 0x0005 0).toNat) ∧
    ∀ i < 4, s.phys (addW 0x0005 i).toNat ≠ 9 := by decide

theorem witness_LoaderIsRefusedAfterRun :
    ended.status ≠ .ready ∧ crashed.status ≠ .ready := by decide

theorem witness_LoaderKeepsTheInvariant :
    State.reset.Wf ∧ (∃ t, State.reset.loadProgram 0x7FFE [0x0A, 0x0B] "p" = .next t) ∧
    ∃ t, State.reset.loadData 0 [0x41] "d" = .next t :=
  ⟨by decide, ⟨_, rfl⟩, _, rfl⟩

end Sys2Proof.Tests
end

section
/-! ### Construct (spec/00_scope.md section 2, spec/70_reset_and_hazards.md R180 and R181)

What `construct` answers in each case, what the placement of a block leaves of the control fields,
and the statements about parameters out of range and about the step budget at the start. -/

namespace Sys2Proof.Machine

theorem construct_of_not_wf {c : Config} (h : c.wf = false) (timeoutAfter : Nat)
    (program : Option (List Byte)) :
    construct c timeoutAfter program = .refused .parametersOutOfRange := by
  simp [construct, h]

theorem construct_none {c : Config} (h : c.wf = true) (timeoutAfter : Nat) :
    construct c timeoutAfter none = .next { State.initial c with timeoutAfter := timeoutAfter } := by
  simp [construct, h]

theorem construct_some {c : Config} (h : c.wf = true) (timeoutAfter : Nat) (bytes : List Byte) :
    construct c timeoutAfter (some bytes) =
      State.loadProgram { State.initial c with timeoutAfter := timeoutAfter } 0 bytes
        Config.initialSegmentName := by
  simp [construct, h]

@[simp] theorem State.place_cfg (s : State) (a : Word) (bytes : List Byte) (name : String) :
    (s.place a bytes name).cfg = s.cfg := State.loadBytes_cfg s a 0 bytes

@[simp] theorem State.place_icount (s : State) (a : Word) (bytes : List Byte) (name : String) :
    (s.place a bytes name).icount = s.icount := State.loadBytes_icount s a 0 bytes

theorem State.loadProgram_of_ready {s : State} (h : s.status = .ready) (a : Word)
    (bytes : List Byte) (name : String) :
    s.loadProgram a bytes name = .next ((s.place a bytes name).setReg 0 a) := if_pos h

/-- R180, R181: the two states `construct` can answer, without and with an initial program. -/
theorem construct_eq_next {c : Config} {timeoutAfter : Nat} {program : Option (List Byte)} {t : State}
    (h : construct c timeoutAfter program = .next t) :
    c.wf = true ∧
      ((program = none ∧ t = { State.initial c with timeoutAfter := timeoutAfter }) ∨
        ∃ bytes, program = some bytes ∧
          t = (State.place { State.initial c with timeoutAfter := timeoutAfter } 0 bytes
            Config.initialSegmentName).setReg 0 0) := by
  cases hwf : c.wf with
  | false => simp [construct_of_not_wf hwf] at h
  | true =>
    refine ⟨rfl, ?_⟩
    cases program with
    | none =>
      rw [construct_none hwf] at h
      injection h with ht
      exact .inl ⟨rfl, ht.symm⟩
    | some bytes =>
      rw [construct_some hwf, State.loadProgram_of_ready rfl] at h
      injection h with ht
      exact .inr ⟨bytes, rfl, ht.symm⟩

/-- R13, R156: a step budget in range is positive, so a block that has completed no instruction is
within it whatever its status. -/
theorem State.withinBudget_of_icount_eq_zero {s : State} (hc : s.cfg.wf = true)
    (h0 : s.icount = 0) : s.WithinBudget := by
  intro n hn
  obtain ⟨-, -, -, -, budget_pos⟩ := Config.wf_bounds hc
  have hpos : 1 ≤ n := budget_pos n hn
  exact ⟨by omega, fun _ => by omega⟩

/-- Settles O28: `construct` checks the ranges before it looks at the program. -/
theorem constructRefusesParametersOutOfRange :
    Obligations.ConstructRefusesParametersOutOfRange :=
  fun _ timeoutAfter program h => construct_of_not_wf h timeoutAfter program

/-- Settles O30: no construction completes an instruction, since loading the initial program leaves
the parameters and the instruction count as they are. -/
theorem constructionIsWithinTheBudget : Obligations.ConstructionIsWithinTheBudget := by
  refine ⟨fun c hc => State.withinBudget_of_icount_eq_zero hc rfl, fun c k program t h => ?_⟩
  obtain ⟨hc, ⟨-, rfl⟩ | ⟨bytes, -, rfl⟩⟩ := construct_eq_next h
  · exact State.withinBudget_of_icount_eq_zero hc rfl
  · apply State.withinBudget_of_icount_eq_zero
    · simpa [State.initial] using hc
    · simp [State.initial]

end Sys2Proof.Machine
end

section
/-! ### Value types and registers (spec/10_state.md sections 1 and 2) -/

namespace Sys2Proof

theorem w16_toNat (v : Int) : ((w16 v).toNat : Int) = v % 65536 := by
  simp only [w16, BitVec.toNat_ofInt]
  omega

theorem b8_toNat (v : Int) : ((b8 v).toNat : Int) = v % 256 := by
  simp only [b8, BitVec.toNat_ofInt]
  omega

/-- R22: a Word is `w16 v` as soon as its value is `v` modulo 65536. -/
theorem eq_w16_of_toNat {a : Word} {v : Int} (h : (a.toNat : Int) = v % 65536) : a = w16 v := by
  have hv := w16_toNat v
  exact BitVec.eq_of_toNat_eq (by omega)

theorem addW_eq_w16 (a : Word) (n : Nat) : addW a n = w16 (a.toNat + n) :=
  eq_w16_of_toNat (by rw [addW_toNat]; omega)

theorem subW_eq_w16 (a : Word) (n : Nat) : subW a n = w16 (a.toNat - n) :=
  eq_w16_of_toNat (by rw [subW_toNat]; omega)

/-- Settles O1: the value of `w16`, and the laws of the two bytes of a Word. -/
theorem wordReconstructsFromItsBytes : Obligations.WordReconstructsFromItsBytes :=
  fun v => ⟨w16_toNat v, wordOf_bytes _, hiByte_toNat _, loByte_toNat _⟩

/-- Settles O2: the value of `b8`. -/
theorem byteConstructionTruncates : Obligations.ByteConstructionTruncates := b8_toNat

/-- Settles O3: both sides have the same value modulo 65536. -/
theorem wordAluWraps : Obligations.WordAluWraps :=
  fun a n => ⟨addW_eq_w16 a n, subW_eq_w16 a n⟩

namespace Machine

/-- R8, R23: ip, sp, bp and gp lie in the register file of a well-formed state. -/
theorem State.Wf.four_le_regs {s : State} (h : s.Wf) : 4 ≤ s.regs.length := by
  obtain ⟨hcfg, hregs, -⟩ := h
  obtain ⟨-, -, four_le_nreg, -⟩ := Config.wf_bounds hcfg
  omega

/-- Settles O4: every index below NREG lies in the register file, where a write is read back. -/
theorem registerFileReadsWhatWasWritten : Obligations.RegisterFileReadsWhatWasWritten := by
  intro s i j v hs hi
  have four_le := hs.four_le_regs
  obtain ⟨-, hregs, -⟩ := hs
  refine ⟨?_, s.getReg_setReg_same (by omega) v, s.getReg_setReg_same (by omega) v,
    s.getReg_setReg_same (by omega) v⟩
  by_cases hji : j = i
  · subst hji
    rw [if_pos rfl, s.getReg_setReg_same (by omega)]
  · rw [if_neg hji, s.getReg_setReg_of_ne (Ne.symm hji)]

end Machine

end Sys2Proof
end

section
/-! ### What an instruction can do (spec/10_state.md R28 to R33)

An `Effect` is everything an instruction does to a state, worked out from the parameters, the
registers and memory alone. `exec_effect` says that every instruction has one, and so says at once
that `exec` is total, what it can change, and what it cannot look at. -/

namespace Sys2Proof.Machine

/-- R28: the parameters, registers and memory of `s` with the control state of `c`. -/
def State.under (s c : State) : State := { c with cfg := s.cfg, regs := s.regs, mem := s.mem }

theorem State.under_self (s : State) : s.under s = s := rfl

theorem State.under_eq_self {s c : State} (hcfg : c.cfg = s.cfg) (hregs : c.regs = s.regs)
    (hmem : c.mem = s.mem) : s.under c = c := by
  rw [State.under, ← hcfg, ← hregs, ← hmem]

/-- The control state plays no part in what an `input` copies. -/
theorem State.copyInput_under (s c : State) (sp : Word) (n : Nat) :
    (s.under c).copyInput sp n = (s.copyInput sp n).under c := by
  induction n with
  | zero => rfl
  | succ n ih => rw [State.copyInput_succ, State.copyInput_succ, ih]; rfl

/-- The control state plays no part in what an `out` reads. -/
theorem State.scan_under (s c : State) (n : Nat) (a : Word) :
    (s.under c).scan n a = s.scan n a := by
  induction n generalizing a with
  | zero => rfl
  | succ n ih =>
    have hread : (s.under c).readByte a = s.readByte a := rfl
    simp only [State.scan, ih, hread]

/-- R140: an `out` reads up to a zero byte, so it finds none among those it appends. -/
theorem State.scan_ne_zero (s : State) (n : Nat) (a : Word) : ∀ b ∈ (s.scan n a).1, b ≠ 0 := by
  induction n generalizing a with
  | zero => simp [State.scan]
  | succ n ih =>
    by_cases hzero : s.readByte a = 0
    · simp [State.scan, hzero]
    · simp only [State.scan, if_neg hzero, List.mem_cons, forall_eq_or_imp]
      exact ⟨hzero, ih _⟩

/-- What an instruction does to a state. -/
inductive Effect
  /-- The handler completes with these registers and this memory. -/
  | store (regs : List Word) (mem : Memory)
  /-- The handler raises a fault, with these registers. -/
  | fault (regs : List Word) (kind : FaultKind) (a0 : Word)
  /-- `halt`. -/
  | halt (regs : List Word)
  /-- `out`: the bytes of one pass, and where an uncompleted one goes on. -/
  | print (regs : List Word) (bytes : List Byte) (scan : Option Word)

/-- The state an effect makes of a state. -/
def Effect.apply : Effect → State → State
  | .store regs mem, s => { s with regs := regs, mem := mem }
  | .fault regs kind a0, s => State.takeFault { s with regs := regs } kind a0
  | .halt regs, s => State.halt { s with regs := regs } .explicit
  | .print regs bytes scan, s =>
      { State.emit { s with regs := regs } (bytes.map .char) with outScan := scan }

/-- What holds of every effect the instruction `i` has in `s`: the number of registers stays, memory
stays canonical, only `halt` halts, and only `out` prints, no byte of it zero. -/
inductive Effect.Allowed (i : Instr) (s : State) : Effect → Prop
  | store {regs : List Word} {mem : Memory} (length : regs.length = s.regs.length)
      (canonical : s.cfg.wf = true → s.mem.Wf s.cfg.memSize → mem.Wf s.cfg.memSize) :
      Allowed i s (.store regs mem)
  | fault {regs : List Word} {kind : FaultKind} {a0 : Word} (length : regs.length = s.regs.length) :
      Allowed i s (.fault regs kind a0)
  | halt {regs : List Word} (isHalt : i = .halt) (length : regs.length = s.regs.length) :
      Allowed i s (.halt regs)
  | print {regs : List Word} {bytes : List Byte} {scan : Option Word} (isOut : ∃ a, i = .out a)
      (length : regs.length = s.regs.length) (nonzero : ∀ b ∈ bytes, b ≠ 0) :
      Allowed i s (.print regs bytes scan)

/-- In `s`, whatever its control state, the instruction `i` has one and the same effect. -/
def State.HasEffect (s : State) (i : Instr) : Prop :=
  ∃ e : Effect, e.Allowed i s ∧ ∀ c, exec i (s.under c) = .next (e.apply (s.under c))

/-- An instruction that only stores, in `s` the registers and memory of `t`. -/
theorem State.HasEffect.store {s : State} {i : Instr} (t : State)
    (length : t.regs.length = s.regs.length)
    (canonical : s.cfg.wf = true → s.mem.Wf s.cfg.memSize → t.mem.Wf s.cfg.memSize)
    (answer : ∀ c, exec i (s.under c) =
      .next { s.under c with regs := t.regs, mem := t.mem }) : s.HasEffect i :=
  ⟨.store t.regs t.mem, .store length canonical, answer⟩

/-- An instruction that faults, in `s` with the registers of `t`. -/
theorem State.HasEffect.fault {s : State} {i : Instr} (t : State) (kind : FaultKind)
    (length : t.regs.length = s.regs.length)
    (answer : ∀ c, exec i (s.under c) =
      .next (State.takeFault { s.under c with regs := t.regs } kind s.ip)) : s.HasEffect i :=
  ⟨.fault t.regs kind s.ip, .fault length, answer⟩

/-- One pass of `out` from any state: what is appended, and where it goes on. -/
theorem State.outFrom_under (s c : State) (a : Word) :
    (s.under c).outFrom a = (Effect.print s.regs (s.scan addressCount a).1
      (if (s.scan addressCount a).2 then none else some a)).apply (s.under c) := by
  simp only [State.outFrom, State.scan_under]
  rfl

theorem State.hasEffect_halt (s : State) : s.HasEffect .halt :=
  ⟨.halt (s.advance .halt).regs, .halt rfl (by simp), fun _ => rfl⟩

theorem State.hasEffect_noop (s : State) : s.HasEffect .noop :=
  .store (s.advance .noop) (by simp) (fun _ hm => hm) fun _ => rfl

theorem State.hasEffect_out (s : State) (a : Word) : s.HasEffect (.out a) :=
  ⟨_, .print ⟨a, rfl⟩ (by simp) ((s.advance .out).scan_ne_zero addressCount a),
    fun c => congrArg Host.Outcome.next ((s.advance .out).outFrom_under c a)⟩

theorem State.hasEffect_writeWord (s : State) (v a : Word) : s.HasEffect (.writeWord v a) :=
  .store ((s.advance .writeWord).writeWord a v) (by simp)
    (fun hc hm => State.writeWord_wf (s := s.advance .writeWord) hc hm a v) fun _ => rfl

theorem State.hasEffect_writeByte (s : State) (v : Byte) (a : Word) :
    s.HasEffect (.writeByte v a) :=
  .store ((s.advance .writeByte).writeByte a v) (by simp)
    (fun hc hm => State.writeByte_wf (s := s.advance .writeByte) hc hm a v) fun _ => rfl

theorem exec_input (s : State) (x : Byte) :
    exec (.input x) s =
      .next ((s.advance .input).copyInput (s.advance .input).sp Config.inputLen) := rfl

theorem State.hasEffect_input (s : State) (x : Byte) : s.HasEffect (.input x) :=
  .store ((s.advance .input).copyInput (s.advance .input).sp Config.inputLen) (by simp)
    (fun hc hm => State.copyInput_wf (s := s.advance .input) hc hm _ _) fun c => by
      have start : (s.under c).advance .input = (s.advance .input).under c := rfl
      have sp : ((s.advance .input).under c).sp = (s.advance .input).sp := rfl
      rw [exec_input, start, sp, State.copyInput_under, State.under, State.copyInput_cfg]
      rfl

/-- R67, R153: an instruction with a register index that is checked first. -/
theorem State.HasEffect.indexed {s : State} {i : Instr} {reg : RegIndex} (o : Opcode)
    (illegal : ∀ u : State, u.cfg.nreg ≤ reg.toNat →
      exec i u = .next ((u.advance o).takeFault (.illegalRegister reg) u.ip))
    (legal : reg.toNat < s.cfg.nreg → s.HasEffect i) : s.HasEffect i := by
  rcases Nat.lt_or_ge reg.toNat s.cfg.nreg with h | h
  · exact legal h
  · exact .fault (s.advance o) (.illegalRegister reg) (by simp) fun c => illegal (s.under c) h

theorem exec_push_illegal {reg : RegIndex} (s : State) (h : s.cfg.nreg ≤ reg.toNat) :
    exec (.push reg) s = .next ((s.advance .push).takeFault (.illegalRegister reg) s.ip) := by
  have check := State.checkReg_error (s := s.advance .push) h s.ip
  simp only [exec, execPush, check, Handled.outcome]

theorem exec_push {reg : RegIndex} (s : State) (h : reg.toNat < s.cfg.nreg) :
    exec (.push reg) s = .next ((s.advance .push).pushReg reg.toNat) := by
  have check := State.checkReg_ok (s := s.advance .push) h s.ip
  simp only [exec, execPush, check, Handled.outcome]

theorem exec_pop_illegal {reg : RegIndex} (s : State) (h : s.cfg.nreg ≤ reg.toNat) :
    exec (.pop reg) s = .next ((s.advance .pop).takeFault (.illegalRegister reg) s.ip) := by
  have check := State.checkReg_error (s := s.advance .pop) h s.ip
  simp only [exec, execPop, check, Handled.outcome]

theorem exec_pop {reg : RegIndex} (s : State) (h : reg.toNat < s.cfg.nreg) :
    exec (.pop reg) s = Handled.outcome ((s.advance .pop).popReg reg.toNat s.ip) := by
  have check := State.checkReg_ok (s := s.advance .pop) h s.ip
  simp only [exec, execPop, check]

theorem exec_mov_illegal {v : Word} {reg : RegIndex} (s : State) (h : s.cfg.nreg ≤ reg.toNat) :
    exec (.mov v reg) s = .next ((s.advance .mov).takeFault (.illegalRegister reg) s.ip) := by
  have check := State.checkReg_error (s := s.advance .mov) h s.ip
  simp only [exec, execMov, check, Handled.outcome]

theorem exec_mov {v : Word} {reg : RegIndex} (s : State) (h : reg.toNat < s.cfg.nreg) :
    exec (.mov v reg) s = .next ((s.advance .mov).setReg reg.toNat v) := by
  have check := State.checkReg_ok (s := s.advance .mov) h s.ip
  simp only [exec, execMov, check, Handled.outcome]

theorem exec_call_illegal {reg : RegIndex} (s : State) (h : s.cfg.nreg ≤ reg.toNat) :
    exec (.call reg) s = .next ((s.advance .call).takeFault (.illegalRegister reg) s.ip) := by
  have check := State.checkReg_error (s := s.advance .call) h s.ip
  simp only [exec, execCall, check, Handled.outcome]

theorem exec_call {reg : RegIndex} (s : State) (h : reg.toNat < s.cfg.nreg) :
    exec (.call reg) s = .next ((s.advance .call).enterFrame.setReg 0
      ((s.advance .call).enterFrame.getReg reg.toNat)) := by
  have check := State.checkReg_ok (s := s.advance .call) h s.ip
  simp only [exec, execCall, check, Handled.outcome]

theorem State.pushReg_wf {s : State} (hc : s.cfg.wf = true) (hm : s.mem.Wf s.cfg.memSize)
    (r : Nat) : (s.pushReg r).mem.Wf s.cfg.memSize :=
  State.writeWord_wf (s := s.setReg 1 (subW s.sp 2)) hc hm _ _

theorem State.enterFrame_wf {s : State} (hc : s.cfg.wf = true) (hm : s.mem.Wf s.cfg.memSize) :
    s.enterFrame.mem.Wf s.cfg.memSize :=
  State.pushReg_wf (s := s.pushReg 0) hc (State.pushReg_wf hc hm 0) 2

@[simp] theorem State.enterFrame_regs_length (s : State) :
    s.enterFrame.regs.length = s.regs.length := by
  simp [State.enterFrame]

theorem State.hasEffect_push (s : State) (reg : RegIndex) : s.HasEffect (.push reg) :=
  .indexed .push exec_push_illegal fun h =>
    .store ((s.advance .push).pushReg reg.toNat) (by simp)
      (fun hc hm => State.pushReg_wf (s := s.advance .push) hc hm _)
      fun c => exec_push (s.under c) h

theorem State.hasEffect_mov (s : State) (v : Word) (reg : RegIndex) : s.HasEffect (.mov v reg) :=
  .indexed .mov exec_mov_illegal fun h =>
    .store ((s.advance .mov).setReg reg.toNat v) (by simp) (fun _ hm => hm)
      fun c => exec_mov (s.under c) h

theorem State.hasEffect_call (s : State) (reg : RegIndex) : s.HasEffect (.call reg) :=
  .indexed .call exec_call_illegal fun h =>
    .store ((s.advance .call).enterFrame.setReg 0
        ((s.advance .call).enterFrame.getReg reg.toNat)) (by simp)
      (fun hc hm => State.enterFrame_wf (s := s.advance .call) hc hm)
      fun c => exec_call (s.under c) h

theorem State.hasEffect_pop (s : State) (reg : RegIndex) : s.HasEffect (.pop reg) := by
  refine .indexed .pop exec_pop_illegal fun h => ?_
  rcases Nat.lt_or_ge ((s.advance .pop).sp.toNat + 1) s.cfg.memSize with hsp | hsp
  · exact .store ((s.advance .pop).setReg reg.toNat
        ((s.advance .pop).wordAt (s.advance .pop).sp.toNat)).raiseSp (by simp) (fun _ hm => hm)
      fun c => (exec_pop (s.under c) h).trans <|
        congrArg Handled.outcome (State.popReg_ok (s := (s.under c).advance .pop) hsp _ _)
  · exact .fault (s.advance .pop) (.boundsFault (s.advance .pop).sp) (by simp)
      fun c => (exec_pop (s.under c) h).trans <|
        congrArg Handled.outcome (State.popReg_error (s := (s.under c).advance .pop) hsp _ _)

/-- R131: the state of a `ret` after its first pop, where that can be read. -/
def State.popBase (s : State) : State :=
  ((s.advance .ret).setReg 2 (s.wordAt s.sp.toNat)).raiseSp

/-- R131: the state of a `ret` after its second pop, where that can be read. -/
def State.popReturn (s : State) : State :=
  (s.popBase.setReg 0 (s.popBase.wordAt s.popBase.sp.toNat)).raiseSp

theorem State.popReg_advance_ret {s : State} (h : s.sp.toNat + 1 < s.cfg.memSize) :
    (s.advance .ret).popReg 2 s.ip = .ok s.popBase := by
  rw [State.popReg_ok (by simpa using h), State.sp_advance]
  rfl

theorem exec_ret_of_first_unreadable {s : State} (h : s.cfg.memSize ≤ s.sp.toNat + 1) :
    exec .ret s = .next ((s.advance .ret).takeFault (.boundsFault s.sp) s.ip) := by
  have first := State.popReg_error (s := s.advance .ret) (by simpa using h) 2 s.ip
  simp only [exec, execRet, first, Handled.outcome, State.sp_advance]

theorem exec_ret_of_second_unreadable {s : State} (h₁ : s.sp.toNat + 1 < s.cfg.memSize)
    (h₂ : s.cfg.memSize ≤ s.popBase.sp.toNat + 1) :
    exec .ret s = .next (s.popBase.takeFault (.boundsFault s.popBase.sp) s.ip) := by
  have second := State.popReg_error (s := s.popBase) h₂ 0 s.ip
  simp only [exec, execRet, State.popReg_advance_ret h₁, second, Handled.outcome]

theorem exec_ret {s : State} (h₁ : s.sp.toNat + 1 < s.cfg.memSize)
    (h₂ : s.popBase.sp.toNat + 1 < s.cfg.memSize) :
    exec .ret s = .next (s.popReturn.setReg 1 s.popReturn.bp) := by
  have second : s.popBase.popReg 0 s.ip = .ok s.popReturn := State.popReg_ok h₂ 0 s.ip
  simp only [exec, execRet, State.popReg_advance_ret h₁, second, Handled.outcome]

theorem State.hasEffect_ret (s : State) : s.HasEffect .ret := by
  rcases Nat.lt_or_ge (s.sp.toNat + 1) s.cfg.memSize with h₁ | h₁
  · rcases Nat.lt_or_ge (s.popBase.sp.toNat + 1) s.cfg.memSize with h₂ | h₂
    · exact .store (s.popReturn.setReg 1 s.popReturn.bp) (by simp [State.popReturn, State.popBase])
        (fun _ hm => hm) fun c => exec_ret (s := s.under c) h₁ h₂
    · exact .fault s.popBase (.boundsFault s.popBase.sp) (by simp [State.popBase])
        fun c => exec_ret_of_second_unreadable (s := s.under c) h₁ h₂
  · exact .fault (s.advance .ret) (.boundsFault s.sp) (by simp)
      fun c => exec_ret_of_first_unreadable (s := s.under c) h₁

/-- R28, R83: every instruction has an effect, so `exec` always answers a next state, the same for
every control state, and one that `Effect.Allowed` allows. -/
theorem exec_effect (i : Instr) (s : State) : s.HasEffect i := by
  cases i with
  | halt => exact s.hasEffect_halt
  | out a => exact s.hasEffect_out a
  | writeWord v a => exact s.hasEffect_writeWord v a
  | writeByte v a => exact s.hasEffect_writeByte v a
  | push reg => exact s.hasEffect_push reg
  | pop reg => exact s.hasEffect_pop reg
  | mov v reg => exact s.hasEffect_mov v reg
  | call reg => exact s.hasEffect_call reg
  | ret => exact s.hasEffect_ret
  | input x => exact s.hasEffect_input x
  | noop => exact s.hasEffect_noop

end Sys2Proof.Machine
end

section
/-! ### The invariant (spec/10_state.md R23, R29 to R31; spec/20_memory.md R41)

One lemma for each kind of update a step is made of, and Construct at the start. -/

namespace Sys2Proof.Machine

/-- An instruction that answers a next state has made an allowed effect of the state. -/
theorem exec_eq_next {i : Instr} {s t : State} (h : exec i s = .next t) :
    ∃ e : Effect, e.Allowed i s ∧ t = e.apply s := by
  obtain ⟨e, allowed, answer⟩ := exec_effect i s
  have he := answer s
  rw [State.under_self, h] at he
  injection he with he
  exact ⟨e, allowed, he⟩

/-- The invariant says nothing of the output, the segments and the counts, and of the registers and
memory only their number and their form. -/
theorem State.Wf.update {s : State} (h : s.Wf) {regs : List Word} {mem : Memory}
    (length : regs.length = s.regs.length) (canonical : mem.Wf s.cfg.memSize)
    (output : List OutEntry) (segments : List Segment) (icount timeoutAfter : Nat) :
    State.Wf { s with
      regs := regs, mem := mem, output := output, segments := segments
      icount := icount, timeoutAfter := timeoutAfter } := by
  obtain ⟨hcfg, hregs, -, hflag, hreason, hrecord, hscan⟩ := h
  exact ⟨hcfg, length.trans hregs, canonical, hflag, hreason, hrecord, hscan⟩

theorem State.Wf.cfg_wf {s : State} (h : s.Wf) : s.cfg.wf = true := by
  obtain ⟨hcfg, -⟩ := h
  exact hcfg

theorem State.Wf.mem_wf {s : State} (h : s.Wf) : s.mem.Wf s.cfg.memSize := by
  obtain ⟨-, -, hmem, -⟩ := h
  exact hmem

theorem State.Wf.count {s : State} (h : s.Wf) : s.count.Wf :=
  h.update rfl h.mem_wf _ _ _ _

theorem State.Wf.setRegs {s : State} (h : s.Wf) {regs : List Word}
    (length : regs.length = s.regs.length) : State.Wf { s with regs := regs } :=
  h.update length h.mem_wf _ _ _ _

theorem State.Wf.emit {s : State} (h : s.Wf) (es : List OutEntry) : (s.emit es).Wf :=
  h.update rfl h.mem_wf _ _ _ _

theorem State.Wf.startRun {s : State} (h : s.Wf)
    (active : s.status = .ready ∨ s.status = .running) : s.startRun.Wf := by
  obtain ⟨hcfg, hregs, hmem, hflag, hreason, hrecord, -⟩ := h
  have notHalted : s.status ≠ .halted := by rcases active with h | h <;> simp [h]
  have notFaulted : s.status ≠ .faulted := by rcases active with h | h <;> simp [h]
  refine ⟨hcfg, hregs, hmem, ?_, ?_, ?_, fun _ => rfl⟩
  · simpa [notHalted] using hflag
  · simpa [notHalted] using hreason
  · simpa [notFaulted] using hrecord

/-- R29, R30: halting a Running block that has no uncompleted `out`. -/
theorem State.Wf.halt {s : State} (h : s.Wf) (running : s.status = .running)
    (noScan : s.outScan = none) (reason : HaltReason) : (s.halt reason).Wf := by
  obtain ⟨hcfg, hregs, hmem, -, -, hrecord, -⟩ := h
  refine ⟨hcfg, hregs, hmem, by simp, by simp, ?_, by simp [noScan]⟩
  simpa [running] using hrecord

/-- R30, R31: taking a fault in a Running block that has no uncompleted `out`. -/
theorem State.Wf.takeFault {s : State} (h : s.Wf) (running : s.status = .running)
    (noScan : s.outScan = none) (kind : FaultKind) (a0 : Word) : (s.takeFault kind a0).Wf := by
  obtain ⟨hcfg, hregs, hmem, hflag, hreason, -, -⟩ := h
  refine ⟨hcfg, hregs, hmem, ?_, ?_, by simp, by simp [noScan]⟩
  · simpa [running] using hflag
  · simpa [running] using hreason

/-- R140: an `out` may stay uncompleted in a Running block. -/
theorem State.Wf.setOutScan {s : State} (h : s.Wf) (running : s.status = .running)
    (scan : Option Word) : State.Wf { s with outScan := scan } := by
  obtain ⟨hcfg, hregs, hmem, hflag, hreason, hrecord, -⟩ := h
  exact ⟨hcfg, hregs, hmem, hflag, hreason, hrecord, fun _ => running⟩

theorem State.Wf.outFrom {s : State} (h : s.Wf) (running : s.status = .running) (a : Word) :
    (s.outFrom a).Wf :=
  (h.emit _).setOutScan running _

theorem State.Wf.unknownOpcode {s : State} (h : s.Wf) (running : s.status = .running)
    (noScan : s.outScan = none) (op : Byte) : (s.unknownOpcode op).Wf :=
  (h.emit _).halt running noScan _

/-- R84: the three things that can follow a handler: nothing, the count alone, or a timeout. -/
theorem State.afterHandler_cases (s : State) :
    s.afterHandler = s ∨ s.afterHandler = s.count ∨
      (s.status = .running ∧ s.outScan = none ∧ s.afterHandler = s.count.halt .timeout) := by
  rcases s.afterHandler_eq with ⟨⟨-, noScan⟩, after⟩ | ⟨-, after⟩
  · rcases s.boundary_eq with ⟨running, -, boundary⟩ | ⟨-, boundary⟩
    · exact .inr (.inr ⟨running, noScan, after.trans boundary⟩)
    · exact .inr (.inl (after.trans boundary))
  · exact .inl after

theorem State.Wf.afterHandler {s : State} (h : s.Wf) : s.afterHandler.Wf := by
  rcases s.afterHandler_cases with e | e | ⟨running, noScan, e⟩ <;> rw [e]
  · exact h
  · exact h.count
  · exact h.count.halt running noScan .timeout

/-- An allowed effect keeps the invariant where an instruction is run. -/
theorem State.Wf.applyEffect {s : State} (h : s.Wf) (running : s.status = .running)
    (noScan : s.outScan = none) {i : Instr} {e : Effect} (allowed : e.Allowed i s) :
    (e.apply s).Wf := by
  cases allowed with
  | store length canonical => exact h.update length (canonical h.cfg_wf h.mem_wf) _ _ _ _
  | fault length => exact (h.setRegs length).takeFault running noScan _ _
  | halt _ length => exact (h.setRegs length).halt running noScan _
  | print _ length _ => exact ((h.setRegs length).emit _).setOutScan running _

/-- Settles O24: Running is entered with the invariant, each way a step can go keeps it, and so does
the boundary. -/
theorem stepKeepsTheInvariant : Obligations.StepKeepsTheInvariant := by
  intro s t hs hstep
  obtain ⟨-, ⟨-, rfl⟩ | ⟨active, cycle⟩⟩ := step_eq hstep
  · exact hs
  have hr := hs.startRun active
  rcases cycle with ⟨a, -, rfl⟩ | ⟨noScan, ⟨op, -, rfl⟩ | ⟨a, -, rfl⟩ | ⟨i, u, -, hexec, rfl⟩⟩
  · exact (hr.outFrom rfl a).afterHandler
  · exact hr.unknownOpcode rfl noScan op
  · exact hr.takeFault rfl noScan _ _
  · obtain ⟨e, allowed, rfl⟩ := exec_eq_next hexec
    exact (hr.applyEffect rfl noScan allowed).afterHandler

theorem State.initial_wf {c : Config} (hc : c.wf = true) : (State.initial c).Wf := by
  obtain ⟨-, -, four_le, -⟩ := Config.wf_bounds hc
  refine ⟨hc, ?_, Memory.zeroed_wf _, ?_⟩
  · simp only [State.initial, List.length_append, List.length_cons, List.length_nil,
      List.length_replicate]
    omega
  · simp [State.initial]

theorem State.Wf.setReg {s : State} (h : s.Wf) (i : Nat) (v : Word) : (s.setReg i v).Wf :=
  h.setRegs (by simp)

/-- R182: placing a block changes memory and the segment list only. -/
theorem State.Wf.place {s : State} (h : s.Wf) (a : Word) (bytes : List Byte) (name : String) :
    (s.place a bytes name).Wf := by
  rw [State.place, State.loadBytes_eq]
  exact h.update rfl (State.loadBytes_wf h.cfg_wf h.mem_wf a 0 bytes) _ _ _ _

/-- Settles O25: the initial state has the invariant, whatever the draws, and loading the initial
program keeps it. -/
theorem constructionEstablishesTheInvariant : Obligations.ConstructionEstablishesTheInvariant := by
  refine ⟨State.initial_wf rfl, fun c => State.initial_wf, fun c k program t h => ?_⟩
  obtain ⟨hc, form⟩ := construct_eq_next h
  have start : State.Wf { State.initial c with timeoutAfter := k } :=
    (State.initial_wf hc).update rfl (State.initial_wf hc).mem_wf _ _ _ _
  rcases form with ⟨-, rfl⟩ | ⟨bytes, -, rfl⟩
  · exact start
  · exact (start.place 0 bytes _).setReg 0 0

/-- Settles O26: the register file of `Config.hardware` has no register past `gp`, and no byte of
memory is listed. -/
theorem resetLeavesTheSpecifiedValues : Obligations.ResetLeavesTheSpecifiedValues :=
  ⟨rfl, rfl, rfl, rfl, rfl, fun _ => rfl, rfl, rfl, rfl, rfl, rfl, rfl, rfl⟩

end Sys2Proof.Machine
end

section
/-! ### The end of a run (spec/10_state.md R29, R30, R36; spec/30_encoding.md R78) -/

namespace Sys2Proof.Machine

/-- R78: a step from Halted or Faulted answers the state it starts in. -/
theorem eq_of_step_of_terminal {s t : State} (terminal : s.Ended ∨ s.Crashed)
    (h : step s = .next t) : t = s := by
  obtain ⟨-, ⟨-, e⟩ | ⟨active, -⟩⟩ := step_eq h
  · exact e
  · rcases terminal with e | e <;> simp [e] at active

theorem step_of_terminal {s : State} (hc : s.cfg.wf = true) (terminal : s.Ended ∨ s.Crashed) :
    step s = .next s := by
  rcases terminal with h | h <;> simp [step, hc, h]

theorem run_of_terminal {s : State} (hc : s.cfg.wf = true) (terminal : s.Ended ∨ s.Crashed)
    (n : Nat) : Sys2Proof.core.run n s = .next s := by
  induction n with
  | zero => rfl
  | succ n ih => rw [core_run_succ (step_of_terminal hc terminal), ih]

theorem eq_of_run_of_terminal {n : Nat} {s t : State} (terminal : s.Ended ∨ s.Crashed)
    (h : Sys2Proof.core.run n s = .next t) : t = s := by
  induction n with
  | zero =>
    injection h with h
    exact h.symm
  | succ n ih =>
    obtain ⟨u, hstep, hrun⟩ := first_step_of_run h
    rw [eq_of_step_of_terminal terminal hstep] at hrun
    exact ih hrun

/-- R36: two runs from one state that both end in Halted or Faulted end in the same state. -/
theorem terminal_state_unique {n m : Nat} {s t u : State}
    (ht : Sys2Proof.core.run n s = .next t) (terminal_t : t.Ended ∨ t.Crashed)
    (hu : Sys2Proof.core.run m s = .next u) (terminal_u : u.Ended ∨ u.Crashed) : t = u := by
  induction n generalizing s m with
  | zero =>
    injection ht with ht
    subst ht
    exact (eq_of_run_of_terminal terminal_t hu).symm
  | succ n ih =>
    cases m with
    | zero =>
      injection hu with hu
      subst hu
      exact eq_of_run_of_terminal terminal_u ht
    | succ m =>
      obtain ⟨v, hstep, hrun_t⟩ := first_step_of_run ht
      rw [core_run_succ hstep] at hu
      exact ih hrun_t hu

/-- Settles O16, by induction on the number of steps. -/
theorem terminalStatusesDoNothing : Obligations.TerminalStatusesDoNothing :=
  fun _ n hs terminal => run_of_terminal hs.cfg_wf terminal n

/-- Settles O18: the state Run returns in is one, so its observation is. -/
theorem runReturnsOneObservation : Obligations.RunReturnsOneObservation := by
  rintro s o p ⟨n, t, hrun_t, terminal_t, rfl⟩ ⟨m, u, hrun_u, terminal_u, rfl⟩
  rw [terminal_state_unique hrun_t terminal_t hrun_u terminal_u]

/-- R29: from `s` to `t` a set halted flag stays set and a recorded halt reason stays. -/
def State.KeepsHalt (s t : State) : Prop :=
  (s.halted = true → t.halted = true) ∧
    ∀ r, s.haltReason = some r → t.haltReason = some r

theorem State.KeepsHalt.refl (s : State) : s.KeepsHalt s := ⟨id, fun _ => id⟩

theorem State.KeepsHalt.trans {s t u : State} (hst : s.KeepsHalt t) (htu : t.KeepsHalt u) :
    s.KeepsHalt u := by
  obtain ⟨flag_st, reason_st⟩ := hst
  obtain ⟨flag_tu, reason_tu⟩ := htu
  exact ⟨flag_tu ∘ flag_st, fun r => reason_tu r ∘ reason_st r⟩

/-- R29: a reason that is recorded is not replaced. -/
theorem State.keepsHalt_halt (s : State) (reason : HaltReason) : s.KeepsHalt (s.halt reason) :=
  ⟨fun _ => rfl, fun r h => by simp [h]⟩

theorem State.keepsHalt_apply (s : State) (e : Effect) : s.KeepsHalt (e.apply s) := by
  cases e with
  | store => exact .refl s
  | fault => exact .refl s
  | halt regs => exact State.keepsHalt_halt { s with regs := regs } .explicit
  | print => exact .refl s

theorem State.keepsHalt_afterHandler (s : State) : s.KeepsHalt s.afterHandler := by
  rcases s.afterHandler_cases with e | e | ⟨-, -, e⟩ <;> rw [e]
  · exact .refl s
  · exact .refl s
  · exact s.count.keepsHalt_halt .timeout

/-- Settles O19: only `halt(reason)` touches the flag and the reason, and it keeps both. -/
theorem haltedFlagIsNeverCleared : Obligations.HaltedFlagIsNeverCleared := by
  intro s t hstep
  change s.KeepsHalt t
  obtain ⟨-, ⟨-, rfl⟩ | ⟨-, cycle⟩⟩ := step_eq hstep
  · exact .refl t
  rcases cycle with ⟨a, -, rfl⟩ | ⟨-, ⟨op, -, rfl⟩ | ⟨a, -, rfl⟩ | ⟨i, u, -, hexec, rfl⟩⟩
  · exact (s.startRun.outFrom a).keepsHalt_afterHandler
  · exact (s.startRun.emit _).keepsHalt_halt .unknownOpcode
  · exact .refl s
  · obtain ⟨e, -, rfl⟩ := exec_eq_next hexec
    exact (s.startRun.keepsHalt_apply e).trans (State.keepsHalt_afterHandler _)

theorem Effect.apply_status_ne_ready {s : State} (running : s.status = .running) (e : Effect) :
    (e.apply s).status ≠ .ready := by
  cases e <;> simp [Effect.apply, running]

theorem State.afterHandler_status_ne_ready {s : State} (h : s.status ≠ .ready) :
    s.afterHandler.status ≠ .ready := by
  rcases s.afterHandler_cases with e | e | ⟨-, -, e⟩ <;> simp [e, h]

/-- R30, R78: Run has started after any step. -/
theorem status_ne_ready_of_step {s t : State} (hstep : step s = .next t) : t.status ≠ .ready := by
  obtain ⟨-, ⟨terminal, rfl⟩ | ⟨-, cycle⟩⟩ := step_eq hstep
  · rcases terminal with h | h <;> simp [h]
  rcases cycle with ⟨a, -, rfl⟩ | ⟨-, ⟨op, -, rfl⟩ | ⟨a, -, rfl⟩ | ⟨i, u, -, hexec, rfl⟩⟩
  · exact State.afterHandler_status_ne_ready (by simp)
  · simp [State.unknownOpcode]
  · simp
  · obtain ⟨e, -, rfl⟩ := exec_eq_next hexec
    exact State.afterHandler_status_ne_ready (Effect.apply_status_ne_ready rfl e)

/-- Settles O20: the terminal statuses do not move, and the flag follows the status by the
invariant. -/
theorem statusFollowsTheStateMachine : Obligations.StatusFollowsTheStateMachine := by
  intro s t hs hstep
  obtain ⟨-, -, -, flag, -⟩ := stepKeepsTheInvariant s t hs hstep
  refine ⟨status_ne_ready_of_step hstep, fun h => ?_, fun h => ?_, flag⟩
  · rw [eq_of_step_of_terminal (.inl h) hstep, h]
  · rw [eq_of_step_of_terminal (.inr h) hstep, h]

end Sys2Proof.Machine
end

section
/-! ### What the engine reads and writes (spec/10_state.md R28, R33, R34) -/

namespace Sys2Proof.Machine

/-- R33: the entries an effect appends to the output buffer. -/
def Effect.entries : Effect → List OutEntry
  | .print _ bytes _ => bytes.map .char
  | .store _ _ | .fault _ _ _ | .halt _ => []

theorem Effect.apply_output (e : Effect) (s : State) :
    (e.apply s).output = s.output ++ e.entries := by
  cases e <;> simp [Effect.apply, Effect.entries]

/-- R28, R32: no effect reaches the parameters or the hidden state. -/
theorem Effect.apply_frame (e : Effect) (s : State) :
    (e.apply s).cfg = s.cfg ∧ (e.apply s).segments = s.segments ∧
      (e.apply s).icount = s.icount ∧ (e.apply s).timeoutAfter = s.timeoutAfter := by
  cases e <;> exact ⟨rfl, rfl, rfl, rfl⟩

/-- Settles O32: the two states have one effect, and each effect leaves a control field alone or
writes to it a value of its own. -/
theorem instructionsIgnoreControlState : Obligations.InstructionsIgnoreControlState := by
  intro i s s' t hcfg hregs hmem hexec
  obtain ⟨e, -, answer⟩ := exec_effect i s
  have ht := answer s
  have ht' := answer s'
  rw [State.under_self, hexec] at ht
  rw [State.under_eq_self hcfg hregs hmem] at ht'
  injection ht with ht
  subst ht
  refine ⟨⟨e.apply s', ht', ?_⟩, e.apply_frame s⟩
  have output : ∃ es, (e.apply s).output = s.output ++ es ∧
      (e.apply s').output = s'.output ++ es := ⟨_, e.apply_output s, e.apply_output s'⟩
  cases e with
  | store regs mem =>
    exact ⟨rfl, rfl, output, .inl ⟨rfl, rfl⟩, .inl ⟨rfl, rfl⟩, .inl ⟨rfl, rfl⟩, .inl ⟨rfl, rfl⟩, id⟩
  | fault regs kind a0 =>
    exact ⟨rfl, hmem, output, .inl ⟨rfl, rfl⟩, .inr rfl, .inr rfl, .inl ⟨rfl, rfl⟩, id⟩
  | halt regs =>
    exact ⟨rfl, hmem, output, .inr rfl, .inr rfl, .inl ⟨rfl, rfl⟩, .inl ⟨rfl, rfl⟩,
      fun h => by simp [Effect.apply, h]⟩
  | print regs bytes scan =>
    exact ⟨rfl, hmem, output, .inl ⟨rfl, rfl⟩, .inl ⟨rfl, rfl⟩, .inl ⟨rfl, rfl⟩, .inr rfl, id⟩

/-- The state with another segment list. -/
def State.withSegments (s : State) (segs : List Segment) : State := { s with segments := segs }

theorem Effect.apply_withSegments (e : Effect) (s : State) (segs : List Segment) :
    e.apply (s.withSegments segs) = (e.apply s).withSegments segs := by
  cases e <;> rfl

theorem exec_withSegments {i : Instr} {s t : State} (h : exec i s = .next t)
    (segs : List Segment) : exec i (s.withSegments segs) = .next (t.withSegments segs) := by
  obtain ⟨e, -, answer⟩ := exec_effect i s
  have ht := answer s
  rw [State.under_self, h] at ht
  injection ht with ht
  rw [ht, ← e.apply_withSegments]
  exact answer (s.withSegments segs)

theorem State.outFrom_withSegments (s : State) (a : Word) (segs : List Segment) :
    (s.withSegments segs).outFrom a = (s.outFrom a).withSegments segs := by
  have here := s.outFrom_under s a
  rw [State.under_self] at here
  rw [here, ← Effect.apply_withSegments]
  exact s.outFrom_under (s.withSegments segs) a

theorem State.boundary_withSegments (s : State) (segs : List Segment) :
    (s.withSegments segs).boundary = s.boundary.withSegments segs := by
  rw [State.boundary, State.boundary]
  exact (apply_ite (State.withSegments · segs) _ (s.count.halt .timeout) s.count).symm

theorem State.afterHandler_withSegments (s : State) (segs : List Segment) :
    (s.withSegments segs).afterHandler = s.afterHandler.withSegments segs := by
  have handled : (s.withSegments segs).handlerCompleted = s.handlerCompleted := rfl
  rw [State.afterHandler, State.afterHandler, handled, State.boundary_withSegments]
  exact (apply_ite (State.withSegments · segs) _ _ _).symm

/-- R84: the boundary, like a halt and a fault, leaves the segment list. -/
@[simp] theorem State.afterHandler_segments (s : State) :
    s.afterHandler.segments = s.segments := by
  rcases s.afterHandler_cases with e | e | ⟨-, -, e⟩ <;> simp [e]

/-- R78 to R80: a step in Ready or Running runs the engine. -/
theorem step_of_active {s : State} (hc : s.cfg.wf = true)
    (active : s.status = .ready ∨ s.status = .running) : step s = engineStep s.startRun := by
  rcases active with h | h
  · simp [step, hc, h]
  · have same : s.startRun = s := by rw [State.startRun, ← h]
    simp [step, hc, h, same]

theorem engineStep_of_outScan {s : State} {a : Word} (h : s.outScan = some a) :
    engineStep s = .next (s.outFrom a).afterHandler := by
  simp [engineStep, h, finish]

theorem engineStep_of_unknown {s : State} {op : Byte} (h : s.outScan = none)
    (hfetch : s.fetch = .unknown op) : engineStep s = .next (s.unknownOpcode op) := by
  simp [engineStep, h, hfetch]

theorem engineStep_of_bounds {s : State} {a : Word} (h : s.outScan = none)
    (hfetch : s.fetch = .bounds a) : engineStep s = .next (s.takeFault (.boundsFault a) s.ip) := by
  simp [engineStep, h, hfetch]

theorem engineStep_of_instr {s u : State} {i : Instr} (h : s.outScan = none)
    (hfetch : s.fetch = .instr i) (hexec : exec i s = .next u) :
    engineStep s = .next u.afterHandler := by
  simp [engineStep, h, hfetch, hexec, finish]

/-- R34, R51: no step changes the segment list. -/
theorem segments_of_step {s t : State} (hstep : step s = .next t) : t.segments = s.segments := by
  obtain ⟨-, ⟨-, rfl⟩ | ⟨-, cycle⟩⟩ := step_eq hstep
  · rfl
  rcases cycle with ⟨a, -, rfl⟩ | ⟨-, ⟨op, -, rfl⟩ | ⟨a, -, rfl⟩ | ⟨i, u, -, hexec, rfl⟩⟩
  · simp
  · rfl
  · rfl
  · obtain ⟨e, -, rfl⟩ := exec_eq_next hexec
    obtain ⟨-, segments, -⟩ := e.apply_frame s.startRun
    simp [segments]

/-- R34, R51: every step commutes with replacing the segment list. -/
theorem step_withSegments {s t : State} (hstep : step s = .next t) (segs : List Segment) :
    step (s.withSegments segs) = .next (t.withSegments segs) := by
  obtain ⟨hc, ⟨terminal, rfl⟩ | ⟨active, cycle⟩⟩ := step_eq hstep
  · exact step_of_terminal (s := t.withSegments segs) hc terminal
  rw [step_of_active (s := s.withSegments segs) hc active]
  rcases cycle with ⟨a, hscan, rfl⟩ |
    ⟨noScan, ⟨op, hfetch, rfl⟩ | ⟨a, hfetch, rfl⟩ | ⟨i, u, hfetch, hexec, rfl⟩⟩
  · rw [← State.afterHandler_withSegments, ← State.outFrom_withSegments]
    exact engineStep_of_outScan (s := (s.withSegments segs).startRun) hscan
  · exact engineStep_of_unknown (s := (s.withSegments segs).startRun) noScan hfetch
  · exact engineStep_of_bounds (s := (s.withSegments segs).startRun) noScan hfetch
  · rw [← State.afterHandler_withSegments]
    exact engineStep_of_instr (s := (s.withSegments segs).startRun) noScan hfetch
      (exec_withSegments hexec segs)

/-- Settles O33: a step leaves the list, and commutes with replacing it. -/
theorem segmentsAreNeverConsulted : Obligations.SegmentsAreNeverConsulted :=
  fun _ _ segs hstep => ⟨segments_of_step hstep, step_withSegments hstep segs⟩

@[simp] theorem State.afterHandler_output (s : State) : s.afterHandler.output = s.output := by
  rcases s.afterHandler_cases with e | e | ⟨-, -, e⟩ <;> simp [e]

/-- R140: the entries of one pass of `out` hold no zero Char. -/
theorem State.outFrom_output (s : State) (a : Word) :
    ∃ es, (s.outFrom a).output = s.output ++ es ∧ ∀ b, OutEntry.char b ∈ es → b ≠ 0 := by
  refine ⟨(s.scan addressCount a).1.map .char, rfl, fun b hb => ?_⟩
  exact s.scan_ne_zero addressCount a b (by simpa using hb)

/-- R33: an instruction appends no zero Char, and only `out` appends. -/
theorem Effect.Allowed.entries {i : Instr} {s : State} {e : Effect} (h : e.Allowed i s) :
    (∀ b, OutEntry.char b ∈ e.entries → b ≠ 0) ∧ (e.entries ≠ [] → ∃ a, i = .out a) := by
  cases h with
  | store => simp [Effect.entries]
  | fault => simp [Effect.entries]
  | halt => simp [Effect.entries]
  | print isOut _ nonzero => exact ⟨by simpa [Effect.entries] using nonzero, fun _ => isOut⟩

/-- Settles O34: the three ways a step appends are an uncompleted `out`, an unknown opcode's
diagnostic, and the entries of an instruction's effect. -/
theorem outputIsAppendOnly : Obligations.OutputIsAppendOnly := by
  intro s t hstep
  obtain ⟨-, ⟨-, rfl⟩ | ⟨-, cycle⟩⟩ := step_eq hstep
  · exact ⟨[], by simp⟩
  rcases cycle with ⟨a, hscan, rfl⟩ |
    ⟨-, ⟨op, hfetch, rfl⟩ | ⟨a, -, rfl⟩ | ⟨i, u, hfetch, hexec, rfl⟩⟩
  · obtain ⟨es, append, nonzero⟩ := s.startRun.outFrom_output a
    exact ⟨es, by simpa using append, nonzero, fun _ => .inl (by simp [hscan])⟩
  · exact ⟨[.diag op s.ip], rfl, by simp, fun _ => .inr (.inr ⟨op, hfetch⟩)⟩
  · exact ⟨[], by simp⟩
  · obtain ⟨e, allowed, rfl⟩ := exec_eq_next hexec
    obtain ⟨nonzero, onlyOut⟩ := allowed.entries
    refine ⟨e.entries, by simp [e.apply_output], nonzero, fun nonempty => .inr (.inl ?_)⟩
    obtain ⟨a, rfl⟩ := onlyOut nonempty
    exact ⟨a, hfetch⟩

end Sys2Proof.Machine
end

section
/-! ### Byte and word accesses (spec/20_memory.md R42 to R46) -/

namespace Sys2Proof.Machine

/-- Settles O5: a byte write pokes the one physical byte its address reduces to. -/
theorem byteAccessWrapsModuloMemsize : Obligations.ByteAccessWrapsModuloMemsize :=
  fun _ a v hs => ⟨rfl, rfl, State.read_writeByte hs.mem_wf a v⟩

theorem State.readWord_of_top {s : State} {a : Word} (h : s.cfg.memSize ≤ a.toNat + 1) :
    s.readWord a = none := by
  rcases s.readWord_eq a with ⟨below, -⟩ | ⟨-, e⟩
  · omega
  · exact e

theorem State.readWord_of_below {s : State} {a : Word} (h : a.toNat + 1 < s.cfg.memSize) :
    s.readWord a = some (wordOf (s.mem.read a.toNat) (s.mem.read (a.toNat + 1))) := by
  rcases s.readWord_eq a with ⟨-, e⟩ | ⟨top, -⟩
  · exact e
  · omega

/-- Settles O6: the two answers of a word read, each under its own bound. -/
theorem wordReadFaultsAtTheTop : Obligations.WordReadFaultsAtTheTop :=
  fun _ _ _ => ⟨State.readWord_of_top, State.readWord_of_below⟩

/-- R45: the high byte stays, since the low byte never lies on the same physical byte. -/
theorem State.read_writeWord_high {s : State} (hs : s.Wf) (a w : Word) :
    (s.writeWord a w).mem.read (s.phys a.toNat) = hiByte w := by
  rw [State.read_writeWord hs.mem_wf, if_neg (State.phys_succ_ne hs.cfg_wf _).symm, if_pos rfl]

theorem State.read_writeWord_low {s : State} (hs : s.Wf) (a w : Word) :
    (s.writeWord a w).mem.read (s.phys (a.toNat + 1)) = loByte w := by
  rw [State.read_writeWord hs.mem_wf, if_pos rfl]

theorem State.read_writeWord_of_ne {s : State} (hs : s.Wf) (a w : Word) {j : Nat}
    (high : j ≠ s.phys a.toNat) (low : j ≠ s.phys (a.toNat + 1)) :
    (s.writeWord a w).mem.read j = s.mem.read j := by
  rw [State.read_writeWord hs.mem_wf, if_neg low, if_neg high]

/-- R43, R45: below the top of memory neither byte's address wraps, so a word is read back. -/
theorem State.readWord_writeWord {s : State} (hs : s.Wf) {a : Word} (w : Word)
    (h : a.toNat + 1 < s.cfg.memSize) : (s.writeWord a w).readWord a = some w := by
  have high := State.read_writeWord_high hs a w
  have low := State.read_writeWord_low hs a w
  rw [State.phys_of_lt (by omega)] at high
  rw [State.phys_of_lt h] at low
  rw [State.readWord_of_below (by simpa using h), high, low, wordOf_bytes]

/-- Where the address after `a` does not wrap to 0x0000, `+w 1` is the unbounded sum. -/
theorem addW_one_toNat {a : Word} (h : a.toNat + 1 < 65536) : (addW a 1).toNat = a.toNat + 1 := by
  rw [addW_toNat, Nat.mod_eq_of_lt h]

/-- Settles O7: the clauses on single bytes are `read_writeWord` at the two physical bytes written,
and at the top of memory the second of them is M[0]. -/
theorem wordWriteIsBigEndianAndWraps : Obligations.WordWriteIsBigEndianAndWraps := by
  intro s a w hs
  have high := State.read_writeWord_high hs a w
  have low := State.read_writeWord_low hs a w
  refine ⟨rfl, high, low, fun j => State.read_writeWord_of_ne hs a w,
    State.readWord_writeWord hs w, high, fun noWrap => ?_, fun top => ⟨?_, ?_⟩⟩
  · rw [State.readByte, addW_one_toNat noWrap]
    exact low
  · rwa [State.phys, top, Nat.mod_self] at low
  · exact State.readWord_of_top (by rw [State.writeWord_cfg]; omega)

end Sys2Proof.Machine
end

section
/-! ### The next fetch (spec/20_memory.md R52, R54; spec/30_encoding.md R71, R80, R81)

A fetch reads its operands through accessors that answer for an address, the decoder through fields
of a list of bytes. `Opcode.readOperands_carries` carries an instruction over from one pair of
readers to another, and so from `decode` to `State.fetch`. -/

namespace Sys2Proof

/-- Every value the first computation answers, the second answers too; their errors, even the types
of these, may differ. -/
abbrev Carries {ε ε' α : Type} (x : Except ε α) (x' : Except ε' α) : Prop :=
  ∀ a, x = .ok a → x' = .ok a

theorem Carries.pure {ε ε' α : Type} (a : α) :
    Carries (pure a : Except ε α) (pure a : Except ε' α) :=
  fun _ h => by injection h with h; rw [h]; rfl

theorem Carries.bind {ε ε' α β : Type} {x : Except ε α} {x' : Except ε' α} {f : α → Except ε β}
    {f' : α → Except ε' β} (hx : Carries x x') (hf : ∀ a, Carries (f a) (f' a)) :
    Carries (x >>= f) (x' >>= f') := by
  intro b h
  cases x with
  | error e => cases h
  | ok a => rw [hx a rfl]; exact hf a b h

/-- R61, R63: a row's operand read is carried from readers to readers that answer alike; of the word
fields only those at the row's own offsets matter. -/
theorem Opcode.readOperands_carries {ε ε' : Type} {order : WbOrder} (o : Opcode)
    {byteAt : Nat → Except ε Byte} {wordAt : Nat → Except ε Word}
    {byteAt' : Nat → Except ε' Byte} {wordAt' : Nat → Except ε' Word}
    (bytes : ∀ k, Carries (byteAt k) (byteAt' k))
    (words : ∀ k ∈ o.wordOffsets order, Carries (wordAt k) (wordAt' k)) :
    Carries (o.readOperands order byteAt wordAt) (o.readOperands order byteAt' wordAt') := by
  cases o with
  | halt | ret | noop => exact .pure _
  | push | pop | call | input => exact (bytes 1).bind fun _ => .pure _
  | out => exact (words 1 (by simp [wordOffsets])).bind fun _ => .pure _
  | mov =>
    exact (words 1 (by simp [wordOffsets])).bind fun _ => (bytes 3).bind fun _ => .pure _
  | writeWord =>
    exact (words 1 (by simp [wordOffsets])).bind fun _ =>
      (words 3 (by simp [wordOffsets])).bind fun _ => .pure _
  | writeByte =>
    cases order with
    | byteFirst =>
      exact (bytes 1).bind fun _ => (words 2 (by simp [wordOffsets])).bind fun _ => .pure _
    | wordFirst =>
      exact (words 1 (by simp [wordOffsets])).bind fun _ => (bytes 3).bind fun _ => .pure _

/-- R72: bytes that decode begin with their row's opcode, and their operand fields give the
instruction. -/
theorem readOperands_of_decode {order : WbOrder} {op : Byte} {operands rest : List Byte}
    {i : Instr} (h : decode order (op :: operands) = .ok (i, rest)) :
    opcodeOf op = some i.opcode ∧
      i.opcode.readOperands order (byteField i.opcode (op :: operands))
        (wordField i.opcode (op :: operands)) = .ok i := by
  cases row : opcodeOf op with
  | none => simp [decode, row] at h
  | some o =>
    cases fields : o.readOperands order (byteField o (op :: operands))
        (wordField o (op :: operands)) with
    | error e => simp [decode, row, fields, bind, Except.bind] at h
    | ok j =>
      have same : j = i := by
        simp only [decode, row, fields] at h
        injection h with h
        exact congrArg Prod.fst h
      subst same
      rw [opcode_of_readOperands fields]
      exact ⟨rfl, fields⟩

/-- A byte field can be read exactly where the instruction's bytes reach that far. -/
theorem byteField_eq_ok {o : Opcode} {bytes : List Byte} {k : Nat} {b : Byte} :
    byteField o bytes k = .ok b ↔ bytes[k]? = some b := by
  unfold byteField
  cases bytes[k]? <;> simp

/-- A word field is put together from two neighbouring byte fields. -/
theorem wordField_eq_ok {o : Opcode} {bytes : List Byte} {k : Nat} {w : Word}
    (h : wordField o bytes k = .ok w) :
    ∃ hi lo, bytes[k]? = some hi ∧ bytes[k + 1]? = some lo ∧ w = wordOf hi lo := by
  unfold wordField at h
  cases high : byteField o bytes k with
  | error e => simp [high, bind, Except.bind] at h
  | ok hi =>
    cases low : byteField o bytes (k + 1) with
    | error e => simp [high, low, bind, Except.bind] at h
    | ok lo =>
      rw [high, low] at h
      injection h with h
      exact ⟨hi, lo, byteField_eq_ok.1 high, byteField_eq_ok.1 low, h.symm⟩

namespace Machine

theorem State.byte_of_instrBytes {s : State} {k : Nat} {b : Byte}
    (h : s.instrBytes[k]? = some b) : b = s.readByte (addW s.ip k) := by
  obtain ⟨_, rfl⟩ := List.getElem?_eq_some_iff.1 h
  simp [State.instrBytes]

/-- R43: a word whose read passes the check is its two bytes, read byte by byte. -/
theorem State.readWord_of_readable {s : State} (hc : s.cfg.wf = true) {a : Word}
    (h : s.wordReadable a = true) :
    s.readWord a = some (wordOf (s.readByte a) (s.readByte (addW a 1))) := by
  obtain ⟨-, small, -⟩ := Config.wf_bounds hc
  have below : a.toNat + 1 < s.cfg.memSize := by simpa [State.wordReadable] using h
  rw [State.readWord_of_below below, State.readByte, State.readByte, addW_one_toNat (by omega),
    State.phys_of_lt below, State.phys_of_lt (by omega)]

theorem State.byteOperand_carries (s : State) (o : Opcode) (k : Nat) :
    Carries (byteField o s.instrBytes k) (s.byteOperand k) := by
  intro b h
  rw [State.byte_of_instrBytes (byteField_eq_ok.1 h)]
  rfl

/-- R81: where its check passes, the checked accessor reads the word the stream holds. -/
theorem State.wordOperand_carries {s : State} (hc : s.cfg.wf = true) (o : Opcode) {k : Nat}
    (readable : s.wordReadable (addW s.ip k) = true) :
    Carries (wordField o s.instrBytes k) (s.wordOperand k) := by
  intro w h
  obtain ⟨hi, lo, high, low, rfl⟩ := wordField_eq_ok h
  rw [State.byte_of_instrBytes high, State.byte_of_instrBytes low, State.wordOperand,
    State.readWord_of_readable hc readable, addW_addW]

theorem State.fetch_of_unknown {s : State} (h : opcodeOf (s.readByte s.ip) = none) :
    s.fetch = .unknown (s.readByte s.ip) := by
  simp [State.fetch, h]

theorem State.fetch_of_readOperands {s : State} {o : Opcode} {i : Instr}
    (row : opcodeOf (s.readByte s.ip) = some o)
    (fields : o.readOperands s.cfg.wbOrder s.byteOperand s.wordOperand = .ok i) :
    s.fetch = .instr i := by
  simp [State.fetch, row, fields]

/-- R80, R81: a fetch gives the instruction the bytes at the instruction pointer decode to, where
its operand words can be read. -/
theorem State.fetch_of_decode {s : State} (hc : s.cfg.wf = true) {i : Instr} {rest : List Byte}
    (h : decode s.cfg.wbOrder s.instrBytes = .ok (i, rest))
    (readable : s.OperandsReadable i.opcode) : s.fetch = .instr i := by
  have first : s.instrBytes = s.readByte s.ip :: s.instrBytes.tail := by
    simp [State.instrBytes, maxLength, List.range_succ_eq_map]
  rw [first] at h
  obtain ⟨row, fields⟩ := readOperands_of_decode h
  rw [← first] at fields
  exact State.fetch_of_readOperands row <| i.opcode.readOperands_carries
    (fun k => s.byteOperand_carries _ k)
    (fun k hk => State.wordOperand_carries hc _ (readable k hk)) i fields

@[simp] theorem State.afterHandler_cfg (s : State) : s.afterHandler.cfg = s.cfg := by
  rcases s.afterHandler_cases with e | e | ⟨-, -, e⟩ <;> simp [e]

@[simp] theorem State.afterHandler_regs (s : State) : s.afterHandler.regs = s.regs := by
  rcases s.afterHandler_cases with e | e | ⟨-, -, e⟩ <;> simp [e]

@[simp] theorem State.afterHandler_mem (s : State) : s.afterHandler.mem = s.mem := by
  rcases s.afterHandler_cases with e | e | ⟨-, -, e⟩ <;> simp [e]

@[simp] theorem State.afterHandler_ip (s : State) : s.afterHandler.ip = s.ip := by
  simp [State.ip, State.getReg]

@[simp] theorem State.afterHandler_readByte (s : State) (a : Word) :
    s.afterHandler.readByte a = s.readByte a := by
  simp [State.readByte, State.phys]

/-- R80 to R84: the step of an instruction that has been fetched. -/
theorem step_of_exec {s u : State} {i : Instr} (hc : s.cfg.wf = true) (fetches : s.Fetches)
    (hfetch : s.fetch = .instr i) (hexec : exec i s.startRun = .next u) :
    step s = .next u.afterHandler := by
  obtain ⟨active, noScan⟩ := fetches
  rw [step_of_active hc active]
  exact engineStep_of_instr (s := s.startRun) noScan hfetch hexec

/-- A step over an instruction that has been fetched gives one next state. -/
theorem eq_afterHandler_of_step {s t u : State} {i : Instr} (fetches : s.Fetches)
    (hfetch : s.fetch = .instr i) (hexec : exec i s.startRun = .next u)
    (hstep : step s = .next t) : t = u.afterHandler := by
  obtain ⟨hc, -⟩ := step_eq hstep
  rw [step_of_exec hc fetches hfetch hexec] at hstep
  injection hstep with hstep
  exact hstep.symm

theorem exec_cfg {i : Instr} {s t : State} (h : exec i s = .next t) : t.cfg = s.cfg := by
  obtain ⟨e, -, rfl⟩ := exec_eq_next h
  obtain ⟨cfg, -⟩ := e.apply_frame s
  exact cfg

/-- Settles O60: the boundary leaves the instruction pointer and memory as the handler left them,
and a fetch depends on nothing else. -/
theorem nextFetchReadsWhatTheHandlerLeft : Obligations.NextFetchReadsWhatTheHandlerLeft := by
  intro i s u t hs fetches hfetch hexec hstep _
  obtain rfl := eq_afterHandler_of_step fetches hfetch hexec hstep
  have cfg : u.cfg = s.cfg := exec_cfg (s := s.startRun) hexec
  have read : ∀ a : Word, u.mem.read (s.phys a.toNat) = u.afterHandler.readByte a := fun a => by
    rw [State.afterHandler_readByte, State.readByte, State.phys, State.phys, cfg]
  have opcode : u.mem.read (s.phys u.ip.toNat) = u.afterHandler.readByte u.afterHandler.ip := by
    rw [read, State.afterHandler_ip]
  have stream : ((List.range maxLength).map fun k => u.mem.read (s.phys (addW u.ip k).toNat)) =
      u.afterHandler.instrBytes := by
    simp only [read, State.instrBytes, State.afterHandler_ip]
  have order : s.cfg = u.afterHandler.cfg := by rw [State.afterHandler_cfg, cfg]
  rw [opcode, stream, order]
  exact ⟨State.afterHandler_ip u, rfl, State.fetch_of_unknown,
    fun _ _ decodes => State.fetch_of_decode (order ▸ hs.cfg_wf) decodes⟩

/-- Settles O35: `write_byte` answers the state with `v` at that byte, and the boundary leaves it
there. -/
theorem nextFetchSeesTheStore : Obligations.NextFetchSeesTheStore := by
  intro s t v a hs fetches hfetch hstep samePlace
  have stored : t.readByte t.ip = v := by
    obtain rfl := eq_afterHandler_of_step fetches hfetch rfl hstep
    rw [State.afterHandler_readByte, State.readByte,
      State.read_writeByte (s := s.startRun.advance .writeByte) hs.mem_wf]
    exact if_pos samePlace
  refine ⟨stored, fun zero => ?_, fun unknown => ?_⟩
  · exact State.fetch_of_readOperands (o := .halt) (by rw [stored, zero]; rfl) rfl
  · rw [State.fetch_of_unknown (by rwa [stored]), stored]

end Machine

end Sys2Proof
end

section
/-! ### The decoder and the encoder (spec/30_encoding.md R60 to R72)

`decode_eq_ok_iff` says once when bytes decode: they begin with the instruction's own bytes. The two
round trips are its two directions. -/

namespace Sys2Proof

@[simp] theorem except_bind_eq_ok_iff {ε α β : Type} {x : Except ε α} {f : α → Except ε β} {b : β} :
    x >>= f = .ok b ↔ ∃ a, x = .ok a ∧ f a = .ok b := by
  cases x with
  | error e => exact ⟨nofun, nofun⟩
  | ok a => exact ⟨fun h => ⟨a, rfl, h⟩, fun ⟨_, same, h⟩ => by cases same; exact h⟩

@[simp] theorem except_map_eq_ok_iff {ε α β : Type} {x : Except ε α} {f : α → β} {b : β} :
    f <$> x = .ok b ↔ ∃ a, x = .ok a ∧ f a = b := by
  cases x <;> simp [Functor.map, Except.map]

theorem wordOf_eq_iff {w : Word} {hi lo : Byte} :
    wordOf hi lo = w ↔ hi = hiByte w ∧ lo = loByte w :=
  ⟨fun h => by simp [← h], fun ⟨high, low⟩ => by rw [high, low, wordOf_bytes]⟩

/-- R62: a word field can be read where the bytes hold its Word, high byte first. -/
theorem wordField_eq_ok_iff {o : Opcode} {bytes : List Byte} {k : Nat} {w : Word} :
    wordField o bytes k = .ok w ↔
      bytes[k]? = some (hiByte w) ∧ bytes[k + 1]? = some (loByte w) := by
  simp [wordField, byteField_eq_ok, wordOf_eq_iff]

/-- A prefix, byte by byte. -/
theorem cons_prefix_iff_getElem? {b : Byte} {l bytes : List Byte} :
    b :: l <+: bytes ↔ bytes[0]? = some b ∧ l <+: bytes.tail := by
  cases bytes <;> simp [eq_comm]

/-- R61, R63 to R65: the read of a row's operand fields gives `i` exactly where the bytes after the
opcode begin with `i`'s operand bytes. -/
theorem readOperands_eq_ok_iff {order : WbOrder} {i : Instr} {op : Byte} {operands : List Byte} :
    i.opcode.readOperands order (byteField i.opcode (op :: operands))
        (wordField i.opcode (op :: operands)) = .ok i ↔
      (encode order i).tail <+: operands := by
  cases i with
  | halt | ret | noop => simp [encode, Instr.opcode, Opcode.readOperands]
  | push | pop | call | input =>
    simp [encode, Instr.opcode, Opcode.readOperands, cons_prefix_iff_getElem?, byteField_eq_ok]
  | out | mov | writeWord =>
    simp [encode, Instr.opcode, Opcode.readOperands, cons_prefix_iff_getElem?, byteField_eq_ok,
      wordField_eq_ok_iff, and_assoc]
  | writeByte =>
    cases order <;>
      simp [encode, Instr.opcode, Opcode.readOperands, cons_prefix_iff_getElem?, byteField_eq_ok,
        wordField_eq_ok_iff, and_assoc]

/-- R60, R65, R70: every instruction's bytes are as many as its row says and begin with its row's
byte. -/
theorem encodedLength (i : Instr) : Laws.EncodedLength.Statement i := by
  cases i with
  | halt => exact Laws.EncodedLength.halt
  | out a => exact Laws.EncodedLength.out a
  | writeWord v a => exact Laws.EncodedLength.writeWord v a
  | writeByte v a => exact Laws.EncodedLength.writeByte v a
  | push reg => exact Laws.EncodedLength.push reg
  | pop reg => exact Laws.EncodedLength.pop reg
  | mov v reg => exact Laws.EncodedLength.mov v reg
  | call reg => exact Laws.EncodedLength.call reg
  | ret => exact Laws.EncodedLength.ret
  | input x => exact Laws.EncodedLength.input x
  | noop => exact Laws.EncodedLength.noop

theorem encode_length (order : WbOrder) (i : Instr) :
    (encode order i).length = i.opcode.length := by
  obtain ⟨length, -⟩ := encodedLength i order
  exact length

theorem encode_eq_cons (order : WbOrder) (i : Instr) :
    encode order i = i.opcode.byte :: (encode order i).tail := by
  obtain ⟨-, -, first, -⟩ := encodedLength i order
  exact (List.cons_head?_tail first).symm

/-- R64: an opcode byte names a row exactly when it is the row's own byte. -/
theorem opcodeOf_eq_some_iff {op : Byte} {o : Opcode} : opcodeOf op = some o ↔ op = o.byte :=
  ⟨byte_of_opcodeOf, fun h => h ▸ opcodeOf_byte o⟩

/-- R60, R70, R72: the three things a decoding says: the row, its operand fields, and its length. -/
theorem decode_cons_eq_ok_iff {order : WbOrder} {op : Byte} {operands rest : List Byte}
    {i : Instr} :
    decode order (op :: operands) = .ok (i, rest) ↔
      opcodeOf op = some i.opcode ∧
      i.opcode.readOperands order (byteField i.opcode (op :: operands))
        (wordField i.opcode (op :: operands)) = .ok i ∧
      (op :: operands).drop i.opcode.length = rest := by
  constructor
  · intro h
    obtain ⟨row, fields⟩ := readOperands_of_decode h
    exact ⟨row, fields, by simpa [decode, row, fields] using h⟩
  · rintro ⟨row, fields, rfl⟩
    simp [decode, row, fields]

/-- R64, R65, R69: bytes decode to an instruction exactly when they are its own bytes and what is
left over. -/
theorem decode_eq_ok_iff {order : WbOrder} {bytes rest : List Byte} {i : Instr} :
    decode order bytes = .ok (i, rest) ↔ bytes = encode order i ++ rest := by
  have encoded := encode_eq_cons order i
  cases bytes with
  | nil =>
    rw [encoded]
    exact ⟨nofun, nofun⟩
  | cons op operands =>
    have begins : encode order i <+: op :: operands ↔
        op = i.opcode.byte ∧ (encode order i).tail <+: operands := by
      rw [encoded, List.cons_prefix_cons, eq_comm, List.tail_cons]
    rw [decode_cons_eq_ok_iff, opcodeOf_eq_some_iff, readOperands_eq_ok_iff, ← and_assoc, ← begins,
      ← encode_length order i]
    constructor
    · rintro ⟨isPrefix, rfl⟩
      exact List.prefix_append_drop isPrefix
    · intro h
      rw [h]
      exact ⟨List.prefix_append _ _, List.drop_left⟩

/-- Settles O8: an instruction's bytes and what follows them are such bytes. -/
theorem decodeOfEncodeIsTheInstruction : Obligations.DecodeOfEncodeIsTheInstruction :=
  fun _ _ _ => decode_eq_ok_iff.2 rfl

/-- Settles O9: nothing else decodes. -/
theorem encodeOfDecodeIsTheBytes : Obligations.EncodeOfDecodeIsTheBytes :=
  fun _ _ _ _ => decode_eq_ok_iff.1

/-- R66: the unknown bytes are those no row stands under. -/
theorem opcodeOf_eq_none_iff {op : Byte} : opcodeOf op = none ↔
    op = 0x01 ∨ op = 0x02 ∨ (0x0C ≤ op.toNat ∧ op.toNat ≤ 0x8F) ∨ 0x91 ≤ op.toNat := by
  have rows : opcodeOf op = none ↔ ∀ row ∈ opcodeTable, row.1 ≠ op := by simp [opcodeOf]
  simp only [rows, opcodeTable, List.forall_mem_cons, List.not_mem_nil, false_imp_iff,
    implies_true, and_true]
  bv_omega

theorem decode_of_unknown (order : WbOrder) {op : Byte} (h : opcodeOf op = none)
    (operands : List Byte) : decode order (op :: operands) = .error (.unknownOpcode op) := by
  simp [decode, h]

/-- R61, R70: no row's operand fields go past the fifth byte. -/
theorem readOperands_total (order : WbOrder) (o : Opcode) (op b1 b2 b3 b4 : Byte) :
    ∃ i, o.readOperands order (byteField o [op, b1, b2, b3, b4])
      (wordField o [op, b1, b2, b3, b4]) = .ok i := by
  cases o with
  | writeByte => cases order <;> exact ⟨_, rfl⟩
  | halt | out | writeWord | push | pop | mov | call | ret | input | noop => exact ⟨_, rfl⟩

/-- Settles O10: the row of a byte is read from the table, and five bytes hold every row's
operands. -/
theorem decoderIsTotalOnOpcodes : Obligations.DecoderIsTotalOnOpcodes := by
  intro order op b1 b2 b3 b4 unknown
  refine ⟨fun h => decode_of_unknown order (opcodeOf_eq_none_iff.2 h) _, fun h => ?_⟩
  obtain ⟨o, row⟩ := Option.ne_none_iff_exists'.1 (mt opcodeOf_eq_none_iff.1 h)
  obtain ⟨i, fields⟩ := readOperands_total order o op b1 b2 b3 b4
  obtain rfl := opcode_of_readOperands fields
  obtain ⟨-, atMost, -⟩ := encodedLength i order
  exact ⟨i, decode_cons_eq_ok_iff.2 ⟨row, fields, rfl⟩, (byte_of_opcodeOf row).symm,
    Nat.le_add_right 1 _, atMost⟩

/-- Settles O11: the words are those the encoder writes, and the table's bits are bytes of one. -/
theorem writtenOutWordsDecode : Obligations.WrittenOutWordsDecode :=
  ⟨decodeOfEncodeIsTheInstruction .byteFirst (.mov 0x0041 3) [],
    decodeOfEncodeIsTheInstruction .byteFirst (.writeWord 0x1234 0x0100) [],
    decodeOfEncodeIsTheInstruction .byteFirst (.writeByte 0x99 0x0042) [],
    decodeOfEncodeIsTheInstruction .wordFirst (.writeByte 0x99 0x0042) [],
    decodeOfEncodeIsTheInstruction .byteFirst (.out 0x0100) [0x90],
    decodeOfEncodeIsTheInstruction .byteFirst (.call 3) [],
    by decide⟩

end Sys2Proof
end

section
/-! ### The instruction cycle (spec/30_encoding.md R78 to R85; spec/60_exceptions.md R152 to
R158) -/

namespace Sys2Proof

/-- R81: where every byte field can be read, the first word field in stream order that cannot be
decides the error. -/
theorem Opcode.readOperands_eq_error {ε : Type} {order : WbOrder} (o : Opcode)
    {byteAt : Nat → Except ε Byte} {wordAt : Nat → Except ε Word} {bad : Nat → Bool} {k : Nat}
    {e : ε} (bytes : ∀ j, ∃ b, byteAt j = .ok b)
    (words : ∀ j, bad j = false → ∃ w, wordAt j = .ok w)
    (first : (o.wordOffsets order).find? bad = some k) (unreadable : wordAt k = .error e) :
    o.readOperands order byteAt wordAt = .error e := by
  have single : ∀ j, List.find? bad [j] = some k → wordAt j = .error e := fun j h => by
    obtain rfl : k = j := by simpa using List.mem_of_find?_eq_some h
    exact unreadable
  cases o with
  | halt | ret | noop | push | pop | call | input => simp [wordOffsets] at first
  | out | mov => simp [readOperands, single 1 first, bind, Except.bind]
  | writeWord =>
    cases high : bad 1 with
    | true =>
      obtain rfl : 1 = k := by simpa [wordOffsets, high] using first
      simp [readOperands, unreadable, bind, Except.bind]
    | false =>
      obtain ⟨w, read⟩ := words 1 high
      have second : wordAt 3 = .error e := single 3 (by simpa [wordOffsets, high] using first)
      simp [readOperands, read, second, bind, Except.bind]
  | writeByte =>
    cases order with
    | byteFirst =>
      obtain ⟨b, read⟩ := bytes 1
      simp [readOperands, read, single 2 first, bind, Except.bind]
    | wordFirst => simp [readOperands, single 1 first, bind, Except.bind]

namespace Machine

/-- R81: a fetch faults at the first operand word in stream order that cannot be read. -/
theorem State.fetch_of_unreadable {s : State} {o : Opcode} {k : Nat}
    (row : opcodeOf (s.readByte s.ip) = some o)
    (first : (o.wordOffsets s.cfg.wbOrder).find?
      (fun k => decide (s.cfg.memSize ≤ (addW s.ip k).toNat + 1)) = some k) :
    s.fetch = .bounds (addW s.ip k) := by
  have top : s.wordReadable (addW s.ip k) = false := by
    simpa [State.wordReadable] using List.find?_some first
  have fields := o.readOperands_eq_error (byteAt := s.byteOperand) (wordAt := s.wordOperand)
    (fun _ => ⟨_, rfl⟩)
    (fun _ below => ⟨_, State.wordOperand_ok (by simpa [State.wordReadable] using below)⟩)
    first (State.wordOperand_error top)
  simp [State.fetch, row, fields]

/-- Settles O13: the fault is taken in the Running state, which differs only in the status. -/
theorem unreadableOperandWordFaultsInDecode : Obligations.UnreadableOperandWordFaultsInDecode := by
  intro s o k hs ⟨active, noScan⟩ row first
  rw [step_of_active hs.cfg_wf active]
  exact engineStep_of_bounds (s := s.startRun) noScan (State.fetch_of_unreadable row first)

/-- R83: every instruction has a meaning. -/
theorem exec_total (i : Instr) (s : State) : ∃ t, exec i s = .next t := by
  obtain ⟨e, -, answer⟩ := exec_effect i s
  exact ⟨e.apply s, answer s⟩

theorem engineStep_total (s : State) : ∃ t, engineStep s = .next t := by
  cases scan : s.outScan with
  | some a => exact ⟨_, engineStep_of_outScan scan⟩
  | none =>
    cases fetched : s.fetch with
    | unknown op => exact ⟨_, engineStep_of_unknown scan fetched⟩
    | bounds a => exact ⟨_, engineStep_of_bounds scan fetched⟩
    | instr i =>
      obtain ⟨t, hexec⟩ := exec_total i s
      exact ⟨_, engineStep_of_instr scan fetched hexec⟩

/-- Settles O21: a terminal state answers itself, and the engine's step is total. -/
theorem stepAlwaysHasANextState : Obligations.StepAlwaysHasANextState := by
  intro s hc
  cases status : s.status with
  | ready => rw [step_of_active hc (.inl status)]; exact engineStep_total _
  | running => rw [step_of_active hc (.inr status)]; exact engineStep_total _
  | halted => exact ⟨s, step_of_terminal hc (.inl status)⟩
  | faulted => exact ⟨s, step_of_terminal hc (.inr status)⟩

/-- Settles O17: a run from a terminal state ends in that state, and the run of no steps does. -/
theorem runOnEndedBlockReturnsAtOnce : Obligations.RunOnEndedBlockReturnsAtOnce := by
  intro s o _ terminal
  constructor
  · rintro ⟨n, t, hrun, -, rfl⟩
    rw [eq_of_run_of_terminal terminal hrun]
  · rintro rfl
    exact ⟨0, s, rfl, terminal, rfl⟩

/-- R84: the boundary follows a handler that has completed. -/
theorem State.afterHandler_of_completed {s : State} (notFaulted : s.status ≠ .faulted)
    (noScan : s.outScan = none) : s.afterHandler = s.boundary := by
  rcases s.afterHandler_eq with ⟨-, after⟩ | ⟨not, -⟩
  · exact after
  · exact absurd ⟨notFaulted, noScan⟩ not

/-- R84: nothing follows a handler that has not completed. -/
theorem State.afterHandler_of_not_completed {s : State}
    (h : ¬ (s.status ≠ .faulted ∧ s.outScan = none)) : s.afterHandler = s := by
  rcases s.afterHandler_eq with ⟨completed, -⟩ | ⟨-, after⟩
  · exact absurd completed h
  · exact after

/-- Settles O12: the bytes decide the fetch, and the handler's completion what follows it. -/
theorem stepRunsTheDecodedInstruction : Obligations.StepRunsTheDecodedInstruction := by
  intro s i rest hs fetches decodes readable
  have run : ∀ t, exec i s.startRun = .next t → step s = .next t.afterHandler := fun t =>
    step_of_exec hs.cfg_wf fetches (State.fetch_of_decode hs.cfg_wf decodes readable)
  obtain ⟨u, hexec⟩ := exec_total i s.startRun
  refine ⟨by rw [run u hexec, hexec]; rfl, fun t ht => ?_⟩
  rw [run t ht]
  split
  case isTrue completed =>
    obtain ⟨notFaulted, noScan⟩ := completed
    rw [State.afterHandler_of_completed notFaulted noScan]
  case isFalse not => rw [State.afterHandler_of_not_completed not]

/-- R156: the budget is spent when the count reaches it. -/
theorem State.budgetSpent_iff (s : State) :
    s.budgetSpent = true ↔ ∃ n, s.cfg.stepBudget = some n ∧ n ≤ s.icount := by
  cases budget : s.cfg.stepBudget <;> simp [State.budgetSpent, budget]

/-- R84, R155, R156: what the boundary looks at. -/
theorem State.timesOut_iff (s : State) :
    s.TimesOut ↔ s.timeoutNow = true ∨ s.count.budgetSpent = true := by
  simp [State.TimesOut, State.timeoutNow, State.timeoutAt, State.budgetSpent_iff]

theorem State.boundary_of_timesOut {s : State} (running : s.status = .running)
    (times : s.TimesOut) : s.boundary = s.count.halt .timeout := by
  rcases s.boundary_eq with ⟨-, -, boundary⟩ | ⟨not, -⟩
  · exact boundary
  · exact absurd ⟨running, s.timesOut_iff.1 times⟩ not

theorem State.boundary_of_not {s : State} (h : ¬ (s.status = .running ∧ s.TimesOut)) :
    s.boundary = s.count := by
  rcases s.boundary_eq with ⟨running, times, -⟩ | ⟨-, boundary⟩
  · exact absurd ⟨running, s.timesOut_iff.2 times⟩ h
  · exact boundary

/-- R100: among the effects on a Running block only `halt`'s leaves it Halted. -/
theorem Effect.apply_haltReason {s : State} (running : s.status = .running)
    (noReason : s.haltReason = none) {e : Effect} (halted : (e.apply s).status = .halted) :
    (e.apply s).haltReason = some .explicit := by
  cases e with
  | store | print => exact absurd (running.symm.trans halted) nofun
  | fault => exact absurd halted nofun
  | halt regs => simp [Effect.apply, noReason]

theorem State.Wf.haltReason_eq_none {s : State} (h : s.Wf) (notHalted : s.status ≠ .halted) :
    s.haltReason = none := by
  obtain ⟨-, -, -, -, reason, -⟩ := h
  simpa [notHalted] using reason

theorem State.Wf.outScan_eq_none {s : State} (h : s.Wf) (notRunning : s.status ≠ .running) :
    s.outScan = none := by
  obtain ⟨-, -, -, -, -, -, scan⟩ := h
  simpa [notRunning] using scan

/-- Settles O15: the handler leaves the counts and the parameters, so that its boundary is the one
`s` foretells. -/
theorem boundaryCountsAndTimesOut : Obligations.BoundaryCountsAndTimesOut := by
  intro s t i hs fetches hfetch hexec
  rw [step_of_exec hs.cfg_wf fetches hfetch hexec]
  obtain ⟨active, noScan⟩ := fetches
  have wf := hs.startRun active
  obtain ⟨e, allowed, rfl⟩ := exec_eq_next hexec
  have wf_t := wf.applyEffect rfl noScan allowed
  obtain ⟨cfg, -, icount, draws⟩ := e.apply_frame s.startRun
  have times : (e.apply s.startRun).TimesOut ↔ s.TimesOut := by
    rw [State.TimesOut, cfg, icount, draws]; rfl
  have count : (e.apply s.startRun).count = { e.apply s.startRun with
      icount := s.icount + 1, timeoutAfter := s.timeoutAfter - 1 } := by
    rw [State.count, icount, draws]; rfl
  refine ⟨fun running done out => ?_, fun running done notOut => ?_, fun halted => ⟨?_, ?_⟩,
    fun faulted => ?_, fun scanning => ?_⟩
  · have noReason := wf_t.haltReason_eq_none (by simp [running])
    rw [State.afterHandler_of_completed (by simp [running]) done,
      State.boundary_of_timesOut running (times.2 out), count, State.halt, noReason]
    rfl
  · rw [State.afterHandler_of_completed (by simp [running]) done,
      State.boundary_of_not fun ⟨_, h⟩ => notOut (times.1 h), count]
  · exact Effect.apply_haltReason rfl (wf.haltReason_eq_none nofun) halted
  · have done := wf_t.outScan_eq_none (by simp [halted])
    rw [State.afterHandler_of_completed (by simp [halted]) done,
      State.boundary_of_not (by simp [halted]), count]
  · rw [State.afterHandler_of_not_completed (by simp [faulted])]
  · rw [State.afterHandler_of_not_completed (by simp [scanning])]

end Machine

end Sys2Proof
end

section
/-! ### `halt` and `noop` (spec/41_halt_noop.md R100, R101) -/

namespace Sys2Proof

namespace Machine

/-- R82: the pointer is one of a well-formed state's registers, so the advance is read back. -/
theorem State.Wf.ip_advance {s : State} (h : s.Wf) (o : Opcode) :
    (s.advance o).ip = addW s.ip o.length :=
  State.ip_advance (Nat.lt_of_lt_of_le (by decide) h.four_le_regs) o

/-- R82: the advance writes the instruction pointer alone. -/
theorem State.sameRegsExcept_advance (s : State) (o : Opcode) :
    s.SameRegsExcept (s.advance o) [0] :=
  ⟨by simp, fun r notListed => s.getReg_advance_of_ne o fun isIp => notListed (by simp [← isIp])⟩

theorem exec_halt (s : State) : exec .halt s = .next ((s.advance .halt).halt .explicit) := rfl

theorem exec_noop (s : State) : exec .noop s = .next (s.advance .noop) := rfl

/-- R29: without a recorded reason, halting records its own. -/
theorem State.halt_haltReason_of_none {s : State} (noReason : s.haltReason = none)
    (r : HaltReason) : (s.halt r).haltReason = some r := by
  rw [State.halt_haltReason, noReason, Option.none_or]

/-- R29: a recorded reason is kept. -/
theorem State.halt_haltReason_of_some {s : State} {recorded : HaltReason}
    (reason : s.haltReason = some recorded) (r : HaltReason) :
    (s.halt r).haltReason = some recorded := by
  rw [State.halt_haltReason, reason, Option.some_or]

/-- Settles O36: halting keeps every register, so that the pointer and the other registers are those
of the advance. -/
theorem haltStopsTheEngine : Obligations.HaltStopsTheEngine := fun s hs =>
  ⟨fun _ => rfl, (s.advance .halt).halt .explicit, exec_halt s, rfl, hs.ip_advance .halt,
    s.sameRegsExcept_advance .halt,
    fun noReason => State.halt_haltReason_of_none (s := s.advance .halt) noReason .explicit,
    fun _ reason => State.halt_haltReason_of_some (s := s.advance .halt) reason .explicit⟩

/-- Settles O37: the next state is that of the cycle's own advance. -/
theorem noopOnlyAdvances : Obligations.NoopOnlyAdvances := fun s hs =>
  ⟨fun _ => rfl, s.advance .noop, exec_noop s, rfl, hs.ip_advance .noop,
    s.sameRegsExcept_advance .noop⟩

end Machine

end Sys2Proof
end

section
/-! ### `write_word` and `write_byte` (spec/42_memory_writes.md R110, R111) -/

namespace Sys2Proof

namespace Machine

theorem State.Wf.advance {s : State} (h : s.Wf) (o : Opcode) : (s.advance o).Wf :=
  h.setReg 0 (addW s.ip o.length)

theorem State.read_writeByte_same {s : State} (hs : s.Wf) (a : Word) (v : Byte) :
    (s.writeByte a v).mem.read (s.phys a.toNat) = v := by
  rw [State.read_writeByte hs.mem_wf, if_pos rfl]

theorem State.read_writeByte_of_ne {s : State} (hs : s.Wf) (a : Word) (v : Byte) {j : Nat}
    (other : j ≠ s.phys a.toNat) : (s.writeByte a v).mem.read j = s.mem.read j := by
  rw [State.read_writeByte hs.mem_wf, if_neg other]

theorem exec_writeWord (s : State) (v a : Word) :
    exec (.writeWord v a) s = .next ((s.advance .writeWord).writeWord a v) := rfl

theorem exec_writeByte (s : State) (v : Byte) (a : Word) :
    exec (.writeByte v a) s = .next ((s.advance .writeByte).writeByte a v) := rfl

/-- R81: the first operand word of a row that cannot be read, after those that can. -/
theorem step_of_unreadable {s : State} {o : Opcode} {k : Nat} {before after : List Nat}
    (hs : s.Wf) (fetches : s.Fetches) (opcode : s.readByte s.ip = o.byte)
    (offsets : o.wordOffsets s.cfg.wbOrder = before ++ k :: after)
    (readable : ∀ j ∈ before, (addW s.ip j).toNat + 1 < s.cfg.memSize)
    (top : s.cfg.memSize ≤ (addW s.ip k).toNat + 1) :
    step s = .next (s.unreadableOperand (addW s.ip k)) := by
  refine unreadableOperandWordFaultsInDecode s o k hs fetches (opcodeOf_eq_some_iff.2 opcode) ?_
  rw [offsets, List.find?_eq_some_iff_append]
  exact ⟨by simpa using top, before, after, rfl, by simpa using readable⟩

/-- Settles O38: the store is a word write after the advance, which touches no memory, and the word
write touches no register. -/
theorem writeWordStoresTheWord : Obligations.WriteWordStoresTheWord := fun s v a hs =>
  have advanced := hs.advance .writeWord
  ⟨fun _ => rfl,
    ⟨(s.advance .writeWord).writeWord a v, exec_writeWord s v a, rfl, hs.ip_advance .writeWord,
      s.sameRegsExcept_advance .writeWord, State.read_writeWord_high advanced a v,
      State.read_writeWord_low advanced a v, fun _ => State.read_writeWord_of_ne advanced a v⟩,
    fun fetches opcode =>
      ⟨step_of_unreadable (o := .writeWord) (before := []) hs fetches opcode rfl (by simp),
        fun first => step_of_unreadable (o := .writeWord) (before := [1]) hs fetches opcode rfl
          (by simpa using first)⟩⟩

/-- R63, R111: the only operand word of `write_byte` is its address, whose place is the operand
order's. -/
theorem wordOffsets_writeByte (order : WbOrder) :
    Opcode.writeByte.wordOffsets order = [if order = .byteFirst then 2 else 1] := by
  cases order <;> rfl

/-- Settles O39: the store is a byte write after the advance, which touches no memory, and the byte
write touches no register. -/
theorem writeByteStoresTheByte : Obligations.WriteByteStoresTheByte := fun s v a hs =>
  have advanced := hs.advance .writeByte
  ⟨rfl, rfl,
    ⟨(s.advance .writeByte).writeByte a v, exec_writeByte s v a, rfl, hs.ip_advance .writeByte,
      s.sameRegsExcept_advance .writeByte, State.read_writeByte_same advanced a v,
      fun _ => State.read_writeByte_of_ne advanced a v⟩,
    fun fetches opcode => step_of_unreadable (o := .writeByte) (before := []) hs fetches opcode
      (wordOffsets_writeByte s.cfg.wbOrder) (by simp)⟩

end Machine

end Sys2Proof
end

section
/-! ### `push`, `pop` and `mov` (spec/43_stack_move.md R120 to R122) -/

namespace Sys2Proof

/-- R22: `+w` undoes `-w`. -/
@[simp] theorem addW_subW (a : Word) (n : Nat) : addW (subW a n) n = a := by
  simp [addW, subW]

namespace Machine

/-! #### Registers -/

/-- R62: operand bytes that differ name different registers. -/
theorem ne_toNat_of_ne {n k : RegIndex} (h : n ≠ k) : k.toNat ≠ n.toNat :=
  fun same => h (BitVec.eq_of_toNat_eq same.symm)

theorem State.SameRegsExcept.trans {s t u : State} {l m : List Nat} (hst : s.SameRegsExcept t l)
    (htu : t.SameRegsExcept u m) : s.SameRegsExcept u (l ++ m) := by
  obtain ⟨length_st, regs_st⟩ := hst
  obtain ⟨length_tu, regs_tu⟩ := htu
  refine ⟨length_tu.trans length_st, fun r notListed => ?_⟩
  rw [List.mem_append, not_or] at notListed
  obtain ⟨notIn_l, notIn_m⟩ := notListed
  exact (regs_tu r notIn_m).trans (regs_st r notIn_l)

/-- Which registers may have changed is a matter of the list's members, not of their order. -/
theorem State.SameRegsExcept.mono {s t : State} {l m : List Nat} (h : s.SameRegsExcept t l)
    (sub : l ⊆ m) : s.SameRegsExcept t m := by
  obtain ⟨length, regs⟩ := h
  exact ⟨length, fun r notListed => regs r fun listed => notListed (sub listed)⟩

theorem State.sameRegsExcept_setReg (s : State) (i : Nat) (v : Word) :
    s.SameRegsExcept (s.setReg i v) [i] :=
  ⟨by simp, fun r notListed => s.getReg_setReg_of_ne (fun same => notListed (by simp [same])) v⟩

theorem State.sameRegsExcept_raiseSp (s : State) : s.SameRegsExcept s.raiseSp [1] :=
  s.sameRegsExcept_setReg 1 _

theorem State.sameRegsExcept_pushReg (s : State) (r : Nat) : s.SameRegsExcept (s.pushReg r) [1] :=
  s.sameRegsExcept_setReg 1 _

/-- R23, R67: an index below NREG lies in the register file, so a write to it is read back. -/
theorem State.Wf.getReg_setReg_same {s : State} (h : s.Wf) {i : Nat} (inRange : i < s.cfg.nreg)
    (v : Word) : (s.setReg i v).getReg i = v := by
  obtain ⟨-, length, -⟩ := h
  exact s.getReg_setReg_same (length ▸ inRange) v

theorem State.ip_setReg_of_ne (s : State) {n : RegIndex} (h : n ≠ 0) (v : Word) :
    (s.setReg n.toNat v).ip = s.ip :=
  s.getReg_setReg_of_ne (ne_toNat_of_ne h).symm v

theorem State.sp_setReg_of_ne (s : State) {n : RegIndex} (h : n ≠ 1) (v : Word) :
    (s.setReg n.toNat v).sp = s.sp :=
  s.getReg_setReg_of_ne (ne_toNat_of_ne h).symm v

theorem State.Wf.sp_setReg {s : State} (h : s.Wf) (v : Word) : (s.setReg 1 v).sp = v :=
  s.getReg_setReg_same (Nat.lt_of_lt_of_le (by decide) h.four_le_regs) v

/-- R82, R120: a handler that reads register 0 finds the pointer already advanced. -/
theorem State.Wf.getReg_advance {s : State} (h : s.Wf) (o : Opcode) (n : RegIndex) :
    (s.advance o).getReg n.toNat =
      if n = 0 then addW s.ip o.length else s.getReg n.toNat := by
  by_cases isIp : n = 0
  · rw [if_pos isIp, isIp]
    exact h.ip_advance o
  · rw [if_neg isIp, s.getReg_advance_of_ne o (ne_toNat_of_ne isIp)]

/-! #### The stack -/

@[simp] theorem State.ip_raiseSp (s : State) : s.raiseSp.ip = s.ip :=
  s.getReg_setReg_of_ne (by decide) _

theorem State.Wf.sp_raiseSp {s : State} (h : s.Wf) : s.raiseSp.sp = addW s.sp 2 :=
  h.sp_setReg _

@[simp] theorem State.ip_pushReg (s : State) (r : Nat) : (s.pushReg r).ip = s.ip :=
  s.getReg_setReg_of_ne (by decide) _

theorem State.Wf.sp_pushReg {s : State} (h : s.Wf) (r : Nat) :
    (s.pushReg r).sp = subW s.sp 2 :=
  h.sp_setReg _

theorem State.Wf.pushReg {s : State} (h : s.Wf) (r : Nat) : (s.pushReg r).Wf :=
  h.update (by simp) (State.pushReg_wf h.cfg_wf h.mem_wf r) _ _ _ _

theorem State.read_pushReg_high {s : State} (h : s.Wf) (r : Nat) :
    (s.pushReg r).mem.read (s.phys (subW s.sp 2).toNat) = hiByte (s.getReg r) :=
  State.read_writeWord_high (h.setReg 1 _) _ _

theorem State.read_pushReg_low {s : State} (h : s.Wf) (r : Nat) :
    (s.pushReg r).mem.read (s.phys ((subW s.sp 2).toNat + 1)) = loByte (s.getReg r) :=
  State.read_writeWord_low (h.setReg 1 _) _ _

theorem State.read_pushReg_of_ne {s : State} (h : s.Wf) (r : Nat) {j : Nat}
    (high : j ≠ s.phys (subW s.sp 2).toNat) (low : j ≠ s.phys ((subW s.sp 2).toNat + 1)) :
    (s.pushReg r).mem.read j = s.mem.read j :=
  State.read_writeWord_of_ne (h.setReg 1 _) _ _ high low

/-- R120, R121: a pushed word that can be read back is what a pop finds at the stack pointer. -/
theorem State.wordAt_pushReg {s : State} (h : s.Wf) (r : Nat)
    (readable : (subW s.sp 2).toNat + 1 < s.cfg.memSize) :
    (s.pushReg r).wordAt (s.pushReg r).sp.toNat = s.getReg r := by
  have stored : (s.pushReg r).readWord (subW s.sp 2) = some (s.getReg r) :=
    State.readWord_writeWord (h.setReg 1 _) _ readable
  rw [State.readWord_of_below (s := s.pushReg r) readable] at stored
  rw [h.sp_pushReg]
  exact Option.some.inj stored

/-! #### `push` -/

/-- Settles O40: the handler is `pushReg` in the advanced state, whose register 0 is the only one
that differs from those before. -/
theorem pushStoresTheRegisterBelowTheStack : Obligations.PushStoresTheRegisterBelowTheStack := by
  intro s n hs
  have advanced := hs.advance .push
  refine ⟨fun _ => rfl, fun inRange => ?_, exec_push_illegal s⟩
  have value : (s.advance .push).getReg n.toNat =
      if n = 0 then addW s.ip 2 else s.getReg n.toNat := hs.getReg_advance .push n
  have high := State.read_pushReg_high advanced n.toNat
  have low := State.read_pushReg_low advanced n.toNat
  have other := fun j => State.read_pushReg_of_ne advanced n.toNat (j := j)
  have sp := advanced.sp_pushReg n.toNat
  simp only [State.sp_advance, State.phys_advance, value] at high low other sp
  exact ⟨(s.advance .push).pushReg n.toNat, exec_push s inRange, rfl,
    (State.ip_pushReg _ _).trans (hs.ip_advance .push), sp,
    (s.sameRegsExcept_advance .push).trans (State.sameRegsExcept_pushReg _ _), high, low, other⟩

/-! #### `pop` -/

/-- R121: the state a `pop` into register `r` leaves where the word at the stack pointer can be
read. -/
def State.popInto (s : State) (r : Nat) : State :=
  ((s.advance .pop).setReg r (s.wordAt s.sp.toNat)).raiseSp

theorem exec_pop_of_readable {s : State} {n : RegIndex} (inRange : n.toNat < s.cfg.nreg)
    (readable : s.sp.toNat + 1 < s.cfg.memSize) : exec (.pop n) s = .next (s.popInto n.toNat) := by
  rw [exec_pop s inRange, State.popReg_ok (by simpa using readable), State.sp_advance]
  rfl

theorem exec_pop_of_unreadable {s : State} {n : RegIndex} (inRange : n.toNat < s.cfg.nreg)
    (top : s.cfg.memSize ≤ s.sp.toNat + 1) :
    exec (.pop n) s = .next ((s.advance .pop).takeFault (.boundsFault s.sp) s.ip) := by
  rw [exec_pop s inRange, State.popReg_error (by simpa using top), State.sp_advance]
  rfl

theorem State.sameRegsExcept_popInto (s : State) (r : Nat) :
    s.SameRegsExcept (s.popInto r) [0, 1, r] :=
  (((s.sameRegsExcept_advance .pop).trans (State.sameRegsExcept_setReg _ r _)).trans
    (State.sameRegsExcept_raiseSp _)).mono (by simp)

/-- R121: the stack pointer that is incremented is the one the register write left. -/
theorem State.Wf.sp_popInto {s : State} (h : s.Wf) (r : Nat) :
    (s.popInto r).sp = addW ((s.advance .pop).setReg r (s.wordAt s.sp.toNat)).sp 2 :=
  ((h.advance .pop).setReg r _).sp_raiseSp

/-- R121: `pop r1` increments the popped word. -/
theorem State.Wf.sp_popInto_sp {s : State} (h : s.Wf) :
    (s.popInto 1).sp = addW (s.wordAt s.sp.toNat) 2 := by
  rw [h.sp_popInto, (h.advance .pop).sp_setReg]

theorem State.Wf.sp_popInto_of_ne {s : State} (h : s.Wf) {n : RegIndex} (notSp : n ≠ 1) :
    (s.popInto n.toNat).sp = addW s.sp 2 := by
  rw [h.sp_popInto, State.sp_setReg_of_ne _ notSp, State.sp_advance]

theorem State.Wf.getReg_popInto_of_ne {s : State} (h : s.Wf) {n : RegIndex}
    (inRange : n.toNat < s.cfg.nreg) (notSp : n ≠ 1) :
    (s.popInto n.toNat).getReg n.toNat = s.wordAt s.sp.toNat :=
  (State.getReg_setReg_of_ne _ (ne_toNat_of_ne notSp) _).trans
    ((h.advance .pop).getReg_setReg_same inRange _)

theorem State.Wf.ip_popInto_of_ne {s : State} (h : s.Wf) {n : RegIndex} (notIp : n ≠ 0) :
    (s.popInto n.toNat).ip = addW s.ip 2 := by
  rw [State.popInto, State.ip_raiseSp, State.ip_setReg_of_ne _ notIp]
  exact h.ip_advance .pop

/-- Settles O41: the index is checked, then the word, and both faults are taken in the advanced
state. -/
theorem popLoadsTheRegisterFromTheStack : Obligations.PopLoadsTheRegisterFromTheStack := by
  intro s n hs
  refine ⟨fun _ => rfl, fun inRange readable => ?_, exec_pop_of_unreadable, exec_pop_illegal s⟩
  refine ⟨s.popInto n.toNat, exec_pop_of_readable inRange readable, rfl,
    s.sameRegsExcept_popInto _, ?_, fun notSp => ?_, hs.ip_popInto_of_ne⟩
  · rintro rfl
    exact hs.sp_popInto_sp
  · exact ⟨hs.sp_popInto_of_ne notSp, hs.getReg_popInto_of_ne inRange notSp⟩

/-! #### `mov` -/

/-- Settles O42: the register write follows the advance, so that in register 0 it replaces the
pointer. -/
theorem movLoadsTheImmediate : Obligations.MovLoadsTheImmediate := by
  intro s v n hs
  refine ⟨fun _ => rfl, fun inRange => ?_, exec_mov_illegal s, fun fetches opcode =>
    step_of_unreadable (o := .mov) (before := []) hs fetches opcode rfl (by simp)⟩
  exact ⟨(s.advance .mov).setReg n.toNat v, exec_mov s inRange, rfl,
    (hs.advance .mov).getReg_setReg_same inRange v,
    fun notIp => (State.ip_setReg_of_ne _ notIp v).trans (hs.ip_advance .mov),
    (s.sameRegsExcept_advance .mov).trans (State.sameRegsExcept_setReg _ _ _)⟩

/-! #### The round trip -/

/-- Settles O52: `pop` finds at the lowered stack pointer the word `push` stored there. -/
theorem pushThenPopTransfersTheValue : Obligations.PushThenPopTransfersTheValue := by
  intro s n m hs inRange_n inRange_m notSp readable
  have advanced := hs.advance .push
  have pushed := advanced.pushReg n.toNat
  have sp : ((s.advance .push).pushReg n.toNat).sp = subW s.sp 2 := by
    rw [advanced.sp_pushReg, State.sp_advance]
  have word := State.wordAt_pushReg advanced n.toNat (by simpa using readable)
  refine ⟨_, _, exec_push s inRange_n, exec_pop_of_readable inRange_m (sp ▸ readable), ?_, ?_⟩
  · rw [pushed.sp_popInto_of_ne notSp, sp, addW_subW]
  · rw [pushed.getReg_popInto_of_ne inRange_m notSp, word]
    exact hs.getReg_advance .push n

end Machine

end Sys2Proof
end

section
/-! ### `call` and `ret` (spec/44_call_return.md R130 to R134) -/

namespace Sys2Proof

/-- R22: raising a lowered Word by less than it was lowered. -/
theorem addW_subW_add (a : Word) (m n : Nat) : addW (subW a (m + n)) n = subW a m := by
  rw [addW, subW, subW, BitVec.ofNat_add]
  ring

theorem subW_subW (a : Word) (m n : Nat) : subW (subW a m) n = subW a (m + n) := by
  rw [subW, subW, subW, BitVec.ofNat_add]
  ring

namespace Machine

theorem State.Wf.ip_setReg {s : State} (h : s.Wf) (v : Word) : (s.setReg 0 v).ip = v :=
  s.getReg_setReg_same (Nat.lt_of_lt_of_le (by decide) h.four_le_regs) v

theorem State.Wf.bp_setReg {s : State} (h : s.Wf) (v : Word) : (s.setReg 2 v).bp = v :=
  s.getReg_setReg_same (Nat.lt_of_lt_of_le (by decide) h.four_le_regs) v

@[simp] theorem State.bp_raiseSp (s : State) : s.raiseSp.bp = s.bp :=
  s.getReg_setReg_of_ne (by decide) _

@[simp] theorem State.bp_pushReg (s : State) (r : Nat) : (s.pushReg r).bp = s.bp :=
  s.getReg_setReg_of_ne (by decide) _

/-- R43: the word at an address depends on its two bytes alone. -/
theorem State.wordAt_congr {s t : State} {j : Nat} (high : t.mem.read j = s.mem.read j)
    (low : t.mem.read (j + 1) = s.mem.read (j + 1)) : t.wordAt j = s.wordAt j :=
  congrArg₂ wordOf high low

/-! #### The frame of a call -/

theorem State.Wf.enterFrame {s : State} (h : s.Wf) : s.enterFrame.Wf :=
  ((h.pushReg 0).pushReg 2).setReg 2 _

/-- R130: two pushes lower the stack pointer by 4. -/
theorem State.Wf.sp_pushReg_pushReg {s : State} (h : s.Wf) (q r : Nat) :
    ((s.pushReg q).pushReg r).sp = subW s.sp 4 := by
  rw [(h.pushReg q).sp_pushReg, h.sp_pushReg, subW_subW]

theorem State.Wf.sp_enterFrame {s : State} (h : s.Wf) : s.enterFrame.sp = subW s.sp 4 :=
  (State.getReg_setReg_of_ne _ (by decide) _).trans (h.sp_pushReg_pushReg 0 2)

theorem State.Wf.bp_enterFrame {s : State} (h : s.Wf) : s.enterFrame.bp = subW s.sp 4 :=
  (((h.pushReg 0).pushReg 2).bp_setReg _).trans (h.sp_pushReg_pushReg 0 2)

theorem State.sameRegsExcept_enterFrame (s : State) : s.SameRegsExcept s.enterFrame [1, 2] :=
  (((s.sameRegsExcept_pushReg 0).trans (State.sameRegsExcept_pushReg _ 2)).trans
    (State.sameRegsExcept_setReg _ 2 _)).mono (by simp)

/-- R130: what a register holds in the new frame, where a `call` reads its target. -/
theorem State.Wf.getReg_enterFrame {s : State} (h : s.Wf) (n : RegIndex) :
    s.enterFrame.getReg n.toNat = if n = 1 ∨ n = 2 then subW s.sp 4 else s.getReg n.toNat := by
  split
  case isTrue stack =>
    rcases stack with rfl | rfl
    · exact h.sp_enterFrame
    · exact h.bp_enterFrame
  case isFalse other =>
    obtain ⟨notSp, notBp⟩ := not_or.1 other
    obtain ⟨-, regs⟩ := s.sameRegsExcept_enterFrame
    have notListed : n.toNat ∉ [1, 2] := List.not_mem_cons_of_ne_of_not_mem
      (ne_toNat_of_ne notSp).symm (List.not_mem_cons_of_ne_of_not_mem
        (ne_toNat_of_ne notBp).symm List.not_mem_nil)
    exact regs n.toNat notListed

/-- R130, R132: memory with the new frame, the base pointer's word written over the return
address's where they meet. -/
theorem State.Wf.read_enterFrame {s : State} (h : s.Wf) (j : Nat) :
    s.enterFrame.mem.read j =
      if j = s.phys ((subW s.sp 4).toNat + 1) then loByte s.bp
      else if j = s.phys (subW s.sp 4).toNat then hiByte s.bp
      else if j = s.phys ((subW s.sp 2).toNat + 1) then loByte s.ip
      else if j = s.phys (subW s.sp 2).toNat then hiByte s.ip
      else s.mem.read j := by
  have first := State.read_pushReg h.mem_wf 0 j
  have second := State.read_pushReg (h.pushReg 0).mem_wf 2 j
  have base : (s.pushReg 0).getReg 2 = s.bp := s.bp_pushReg 0
  rw [h.sp_pushReg, subW_subW, base, first] at second
  exact second

/-! #### `call` -/

/-- R130: the state a `call` through register `r` leaves. -/
def State.called (s : State) (r : Nat) : State :=
  (s.advance .call).enterFrame.setReg 0 ((s.advance .call).enterFrame.getReg r)

theorem exec_call_eq_called {s : State} {n : RegIndex} (inRange : n.toNat < s.cfg.nreg) :
    exec (.call n) s = .next (s.called n.toNat) :=
  exec_call s inRange

@[simp] theorem State.called_cfg (s : State) (r : Nat) : (s.called r).cfg = s.cfg := rfl

theorem State.Wf.called {s : State} (h : s.Wf) (r : Nat) : (s.called r).Wf :=
  (h.advance .call).enterFrame.setReg 0 _

theorem State.Wf.sp_called {s : State} (h : s.Wf) (r : Nat) : (s.called r).sp = subW s.sp 4 := by
  rw [← s.sp_advance .call]
  exact (State.getReg_setReg_of_ne _ (by decide) _).trans (h.advance .call).sp_enterFrame

theorem State.Wf.bp_called {s : State} (h : s.Wf) (r : Nat) : (s.called r).bp = subW s.sp 4 := by
  rw [← s.sp_advance .call]
  exact (State.getReg_setReg_of_ne _ (by decide) _).trans (h.advance .call).bp_enterFrame

/-- R130: the target is read in the new frame. -/
theorem State.Wf.ip_called {s : State} (h : s.Wf) (n : RegIndex) :
    (s.called n.toNat).ip =
      if n = 0 then addW s.ip 2 else if n = 1 ∨ n = 2 then subW s.sp 4 else s.getReg n.toNat := by
  have advanced := h.advance .call
  have target : (s.called n.toNat).ip = (s.advance .call).enterFrame.getReg n.toNat :=
    advanced.enterFrame.ip_setReg _
  rw [target, advanced.getReg_enterFrame, h.getReg_advance, State.sp_advance]
  by_cases isIp : n = 0
  · subst isIp
    rfl
  · simp only [if_neg isIp]

theorem State.sameRegsExcept_called (s : State) (r : Nat) :
    s.SameRegsExcept (s.called r) [0, 1, 2] :=
  (((s.sameRegsExcept_advance .call).trans (State.sameRegsExcept_enterFrame _)).trans
    (State.sameRegsExcept_setReg _ 0 _)).mono (by simp)

/-- R130, R132: the frame holds the caller's base pointer and the address after the call. -/
theorem State.Wf.read_called {s : State} (h : s.Wf) (r j : Nat) :
    (s.called r).mem.read j =
      if j = s.phys ((subW s.sp 4).toNat + 1) then loByte s.bp
      else if j = s.phys (subW s.sp 4).toNat then hiByte s.bp
      else if j = s.phys ((subW s.sp 2).toNat + 1) then loByte (addW s.ip 2)
      else if j = s.phys (subW s.sp 2).toNat then hiByte (addW s.ip 2)
      else s.mem.read j := by
  have frame := (h.advance .call).read_enterFrame j
  rw [h.ip_advance, State.sp_advance, State.bp_advance] at frame
  exact frame

/-- Settles O43: the state after a `call` is `called`, whose registers and memory are those of the
new frame. -/
theorem callPushesTheFrameAndJumps : Obligations.CallPushesTheFrameAndJumps := by
  intro s n hs
  refine ⟨fun _ => rfl, fun inRange => ?_, exec_call_illegal s⟩
  exact ⟨s.called n.toNat, exec_call_eq_called inRange, rfl, hs.sp_called _, hs.bp_called _,
    hs.ip_called n, s.sameRegsExcept_called _, hs.read_called _⟩

/-! #### `ret` -/

theorem State.Wf.popBase {s : State} (h : s.Wf) : s.popBase.Wf :=
  ((h.advance .ret).setReg 2 _).setReg 1 _

theorem State.Wf.popReturn {s : State} (h : s.Wf) : s.popReturn.Wf :=
  (h.popBase.setReg 0 _).setReg 1 _

theorem State.Wf.ip_popBase {s : State} (h : s.Wf) : s.popBase.ip = addW s.ip 1 :=
  ((State.ip_raiseSp _).trans (State.getReg_setReg_of_ne _ (by decide) _)).trans
    (h.ip_advance .ret)

theorem State.Wf.sp_popBase {s : State} (h : s.Wf) : s.popBase.sp = addW s.sp 2 := by
  have kept : ((s.advance .ret).setReg 2 (s.wordAt s.sp.toNat)).sp = s.sp :=
    (State.getReg_setReg_of_ne _ (by decide) _).trans (s.sp_advance .ret)
  rw [State.popBase, ((h.advance .ret).setReg 2 _).sp_raiseSp, kept]

theorem State.Wf.bp_popBase {s : State} (h : s.Wf) : s.popBase.bp = s.wordAt s.sp.toNat :=
  (State.bp_raiseSp _).trans ((h.advance .ret).bp_setReg _)

theorem State.sameRegsExcept_popBase (s : State) : s.SameRegsExcept s.popBase [0, 1, 2] :=
  (((s.sameRegsExcept_advance .ret).trans (State.sameRegsExcept_setReg _ 2 _)).trans
    (State.sameRegsExcept_raiseSp _)).mono (by simp)

/-- R131: the first pop leaves memory alone, so the second reads the word above the first. -/
theorem State.Wf.ip_popReturn {s : State} (h : s.Wf) :
    s.popReturn.ip = s.wordAt (addW s.sp 2).toNat := by
  rw [← h.sp_popBase]
  exact (State.ip_raiseSp _).trans (h.popBase.ip_setReg _)

theorem State.Wf.bp_popReturn {s : State} (h : s.Wf) : s.popReturn.bp = s.wordAt s.sp.toNat :=
  ((State.bp_raiseSp _).trans (State.getReg_setReg_of_ne _ (by decide) _)).trans h.bp_popBase

theorem State.sameRegsExcept_popReturn (s : State) : s.SameRegsExcept s.popReturn [0, 1, 2] :=
  ((s.sameRegsExcept_popBase.trans (State.sameRegsExcept_setReg _ 0 _)).trans
    (State.sameRegsExcept_raiseSp _)).mono (by simp)

/-- R131: the state a `ret` leaves where both words of the frame can be read. -/
def State.returned (s : State) : State := s.popReturn.setReg 1 s.popReturn.bp

theorem exec_ret_of_readable {s : State} (h : s.Wf) (first : s.sp.toNat + 1 < s.cfg.memSize)
    (second : (addW s.sp 2).toNat + 1 < s.cfg.memSize) : exec .ret s = .next s.returned :=
  exec_ret first (h.sp_popBase ▸ second)

theorem State.Wf.ip_returned {s : State} (h : s.Wf) :
    s.returned.ip = s.wordAt (addW s.sp 2).toNat :=
  (State.getReg_setReg_of_ne _ (by decide) _).trans h.ip_popReturn

theorem State.Wf.bp_returned {s : State} (h : s.Wf) : s.returned.bp = s.wordAt s.sp.toNat :=
  (State.getReg_setReg_of_ne _ (by decide) _).trans h.bp_popReturn

theorem State.Wf.sp_returned {s : State} (h : s.Wf) : s.returned.sp = s.wordAt s.sp.toNat :=
  (h.popReturn.sp_setReg _).trans h.bp_popReturn

theorem State.sameRegsExcept_returned (s : State) : s.SameRegsExcept s.returned [0, 1, 2] :=
  (s.sameRegsExcept_popReturn.trans (State.sameRegsExcept_setReg _ 1 _)).mono (by simp)

/-- Settles O44: the two pops can fault in turn, the second of them in the state `popBase`. -/
theorem retPopsTheFrame : Obligations.RetPopsTheFrame := by
  intro s hs
  refine ⟨fun _ => rfl, exec_ret_of_first_unreadable, fun first top => ?_, fun first second => ?_⟩
  · rw [← hs.sp_popBase] at top ⊢
    exact ⟨s.popBase.takeFault (.boundsFault s.popBase.sp) s.ip,
      exec_ret_of_second_unreadable first top, rfl, hs.ip_popBase, hs.bp_popBase, rfl,
      s.sameRegsExcept_popBase⟩
  · exact ⟨s.returned, exec_ret_of_readable hs first second, rfl, hs.bp_returned, hs.ip_returned,
      hs.sp_returned, s.sameRegsExcept_returned⟩

/-! #### The round trip -/

/-- R132: the caller's base pointer lies at the new stack pointer. -/
theorem State.Wf.wordAt_called_base {s : State} (h : s.Wf) (r : Nat)
    (readable : (subW s.sp 4).toNat + 1 < s.cfg.memSize) :
    (s.called r).wordAt (subW s.sp 4).toNat = s.bp := by
  have high := h.read_called r (subW s.sp 4).toNat
  have low := h.read_called r ((subW s.sp 4).toNat + 1)
  rw [State.phys_of_lt readable, State.phys_of_lt (Nat.lt_of_succ_lt readable)] at high low
  rw [if_neg (by omega), if_pos rfl] at high
  rw [if_pos rfl] at low
  rw [State.wordAt, high, low, wordOf_bytes]

/-- R132: the return address lies above the base pointer, whose push leaves it alone. -/
theorem State.Wf.wordAt_called_return {s : State} (h : s.Wf) (r : Nat)
    (baseReadable : (subW s.sp 4).toNat + 1 < s.cfg.memSize)
    (returnReadable : (subW s.sp 2).toNat + 1 < s.cfg.memSize) :
    (s.called r).wordAt (subW s.sp 2).toNat = addW s.ip 2 := by
  obtain ⟨-, memSize_le, -⟩ := Config.wf_bounds h.cfg_wf
  have above : (subW s.sp 2).toNat = ((subW s.sp 4).toNat + 2) % 65536 := by
    rw [← addW_subW_add s.sp 2 2, addW_toNat]
  have high := h.read_called r (subW s.sp 2).toNat
  have low := h.read_called r ((subW s.sp 2).toNat + 1)
  rw [State.phys_of_lt baseReadable, State.phys_of_lt (Nat.lt_of_succ_lt baseReadable),
    State.phys_of_lt returnReadable,
    State.phys_of_lt (Nat.lt_of_succ_lt returnReadable)] at high low
  rw [if_neg (by omega), if_neg (by omega), if_neg (by omega), if_pos rfl] at high
  rw [if_neg (by omega), if_neg (by omega), if_pos rfl] at low
  rw [State.wordAt, high, low, wordOf_bytes]

/-- Settles O53: the four saved bytes are the two words that `ret` reads, and they hold what the
call wrote. -/
theorem retReturnsToTheCaller : Obligations.RetReturnsToTheCaller := by
  intro s t u n hs inRange hcall hu cfg sp baseReadable returnReadable kept
  obtain rfl : s.called n.toNat = t := by
    simpa [exec_call_eq_called inRange] using hcall
  rw [hs.sp_called] at sp
  have above : addW u.sp 2 = subW s.sp 2 := by rw [sp, addW_subW_add s.sp 2 2]
  have savedBase : u.wordAt u.sp.toNat = s.bp := by
    rw [sp, ← hs.wordAt_called_base n.toNat baseReadable]
    exact State.wordAt_congr (kept _ (by simp)) (kept _ (by simp))
  have savedReturn : u.wordAt (addW u.sp 2).toNat = addW s.ip 2 := by
    rw [above, ← hs.wordAt_called_return n.toNat baseReadable returnReadable]
    exact State.wordAt_congr (kept _ (by simp)) (kept _ (by simp))
  rw [← savedBase, ← savedReturn]
  exact ⟨u.returned, exec_ret_of_readable hu (by rwa [sp, cfg]) (by rwa [above, cfg]),
    hu.ip_returned, hu.bp_returned, hu.sp_returned⟩

end Machine

end Sys2Proof
end

section
/-! ### The stack smash (spec/44_call_return.md R132; spec/45_output_input.md R141) -/

namespace Sys2Proof

namespace Machine

theorem State.Wf.copyInput {s : State} (h : s.Wf) (sp : Word) (n : Nat) :
    (s.copyInput sp n).Wf := by
  rw [State.copyInput_eq]
  exact h.update rfl (State.copyInput_wf h.cfg_wf h.mem_wf sp n) _ _ _ _

@[simp] theorem State.getReg_copyInput (s : State) (sp : Word) (n i : Nat) :
    (s.copyInput sp n).getReg i = s.getReg i := by
  rw [State.getReg, State.copyInput_regs, State.getReg]

@[simp] theorem State.phys_copyInput (s : State) (sp : Word) (n a : Nat) :
    (s.copyInput sp n).phys a = s.phys a := by
  rw [State.phys, State.copyInput_cfg, State.phys]

/-- R141: memory after one more byte of the copy. -/
theorem State.Wf.read_copyInput_succ {s : State} (h : s.Wf) (sp : Word) (n j : Nat) :
    (s.copyInput sp (n + 1)).mem.read j =
      if j = s.phys (addW (subW sp 256) n).toNat then
        (s.copyInput sp n).mem.read (s.phys (addW 0x2000 n).toNat)
      else (s.copyInput sp n).mem.read j := by
  rw [State.copyInput_succ, State.read_writeByte (h.copyInput sp n).mem_wf, State.readByte,
    State.phys_copyInput, State.phys_copyInput]
  rfl

/-- R141: with its destination inside memory and apart from its source, the copy of the first `n`
bytes is their image, and every other byte stays. -/
theorem State.Wf.read_copyInput_of_apart {s : State} (h : s.Wf) {sp : Word}
    (source : 0x2104 ≤ s.cfg.memSize) (bottom : 256 ≤ sp.toNat)
    (top : sp.toNat + 4 ≤ s.cfg.memSize)
    (apart : sp.toNat + 4 ≤ 0x2000 ∨ 0x2104 + 256 ≤ sp.toNat) {n : Nat} (within : n ≤ 260)
    (j : Nat) :
    (s.copyInput sp n).mem.read j =
      if sp.toNat - 256 ≤ j ∧ j < sp.toNat - 256 + n then
        s.mem.read (0x2000 + (j - (sp.toNat - 256)))
      else s.mem.read j := by
  induction n generalizing j with
  | zero => rw [if_neg (by omega)]; rfl
  | succ n ih =>
    obtain ⟨-, memSize_le, -⟩ := Config.wf_bounds h.cfg_wf
    have target : s.phys (addW (subW sp 256) n).toNat = sp.toNat - 256 + n := by
      have value : (addW (subW sp 256) n).toNat = sp.toNat - 256 + n := by
        rw [addW_toNat, subW_toNat]; omega
      rw [value, State.phys_of_lt (by omega)]
    have origin : s.phys (addW 0x2000 n).toNat = 0x2000 + n := by
      have value : (addW 0x2000 n).toNat = 0x2000 + n := by
        rw [addW_toNat, show (0x2000 : Word).toNat = 0x2000 from rfl]; omega
      rw [value, State.phys_of_lt (by omega)]
    rw [h.read_copyInput_succ, target, origin, ih (by omega), ih (by omega),
      if_neg (show ¬(sp.toNat - 256 ≤ 0x2000 + n ∧ 0x2000 + n < sp.toNat - 256 + n) by omega)]
    by_cases last : j = sp.toNat - 256 + n
    · rw [if_pos last, if_pos (by omega), last, Nat.add_sub_cancel_left]
    · rw [if_neg last]
      exact if_congr (by omega) rfl rfl

/-- R141: the state an `input` leaves. -/
def State.received (s : State) : State :=
  (s.advance .input).copyInput (s.advance .input).sp Config.inputLen

theorem exec_input_eq_received (s : State) (x : Byte) : exec (.input x) s = .next s.received :=
  exec_input s x

@[simp] theorem State.received_cfg (s : State) : s.received.cfg = s.cfg := by
  simp [State.received]

theorem State.Wf.received {s : State} (h : s.Wf) : s.received.Wf :=
  (h.advance .input).copyInput _ _

@[simp] theorem State.sp_received (s : State) : s.received.sp = s.sp :=
  (State.getReg_copyInput _ _ _ 1).trans (s.sp_advance .input)

/-- R132, R141: with its destination inside memory and apart from its source, an `input` overwrites
the four bytes at the stack pointer with the last four bytes of its block. -/
theorem State.Wf.wordAt_received_frame {s : State} (h : s.Wf) (source : 0x2104 ≤ s.cfg.memSize)
    (bottom : 256 ≤ s.sp.toNat) (top : s.sp.toNat + 4 ≤ s.cfg.memSize)
    (apart : s.sp.toNat + 4 ≤ 0x2000 ∨ 0x2104 + 256 ≤ s.sp.toNat) {k : Nat} (saved : k ≤ 2) :
    s.received.wordAt (s.sp.toNat + k) = s.wordAt (0x2100 + k) := by
  have byte : ∀ i, i < 4 →
      s.received.mem.read (s.sp.toNat + i) = s.mem.read (0x2100 + i) := fun i hi => by
    rw [State.received, State.sp_advance, Config.inputLen,
      (h.advance .input).read_copyInput_of_apart source bottom top apart le_rfl,
      if_pos (by omega), show 0x2000 + (s.sp.toNat + i - (s.sp.toNat - 256)) = 0x2100 + i by omega,
      State.advance_mem]
  exact congrArg₂ wordOf (byte k (by omega)) (byte (k + 1) (by omega))

/-- R130: where the stack pointer is inside memory, a `call` writes the four bytes below it alone. -/
theorem State.Wf.read_called_of_apart {s : State} (h : s.Wf) (r : Nat) {j : Nat}
    (bottom : 4 ≤ s.sp.toNat) (top : s.sp.toNat ≤ s.cfg.memSize)
    (apart : j + 4 < s.sp.toNat ∨ s.sp.toNat ≤ j) :
    (s.called r).mem.read j = s.mem.read j := by
  have base : (subW s.sp 4).toNat = s.sp.toNat - 4 := by rw [subW_toNat]; omega
  have above : (subW s.sp 2).toNat = s.sp.toNat - 2 := by rw [subW_toNat]; omega
  rw [h.read_called, base, above, State.phys_of_lt (by omega), State.phys_of_lt (by omega),
    State.phys_of_lt (by omega), State.phys_of_lt (by omega), if_neg (by omega),
    if_neg (by omega), if_neg (by omega), if_neg (by omega)]

/-- R132, R141: an `input` made right after a `call` puts the last four bytes of its block where the
call put the frame, and the call left the block as it was. -/
theorem State.Wf.wordAt_received_called {s : State} (h : s.Wf) (r : Nat)
    (source : 0x2104 ≤ s.cfg.memSize) (bottom : 260 ≤ s.sp.toNat)
    (top : s.sp.toNat ≤ s.cfg.memSize)
    (apart : s.sp.toNat ≤ 0x2000 ∨ 0x2104 + 260 ≤ s.sp.toNat) {k : Nat} (saved : k ≤ 2) :
    (s.called r).received.wordAt ((s.called r).sp.toNat + k) = s.wordAt (0x2100 + k) := by
  have sp : (s.called r).sp.toNat = s.sp.toNat - 4 := by rw [h.sp_called, subW_toNat]; omega
  rw [(h.called r).wordAt_received_frame source (by omega) (by rw [State.called_cfg]; omega)
    (by omega) saved]
  exact State.wordAt_congr (h.read_called_of_apart r (by omega) top (by omega))
    (h.read_called_of_apart r (by omega) top (by omega))

/-- Settles O54: `input` leaves the stack pointer at the frame of the call, and `ret` pops the two
words that `input` has put there. -/
theorem inputAfterCallHijacksTheReturn : Obligations.InputAfterCallHijacksTheReturn := by
  intro s n x hs inRange source bottom top apart
  let t := s.called n.toNat
  have received : t.received.Wf := (hs.called n.toNat).received
  have sp : t.received.sp.toNat = s.sp.toNat - 4 := by
    rw [State.sp_received, hs.sp_called, subW_toNat]; omega
  have above : (addW t.received.sp 2).toNat = t.sp.toNat + 2 := by
    rw [addW_toNat, Nat.mod_eq_of_lt (by omega), State.sp_received]
  have smashed : ∀ k, k ≤ 2 → t.received.wordAt (t.sp.toNat + k) = s.wordAt (0x2100 + k) :=
    fun _ => hs.wordAt_received_called n.toNat source bottom top apart
  have base : t.received.wordAt t.received.sp.toNat = s.wordAt 0x2100 := by
    rw [State.sp_received]
    exact smashed 0 (by decide)
  have target : t.received.wordAt (addW t.received.sp 2).toNat = s.wordAt 0x2102 := by
    rw [above]
    exact smashed 2 (by decide)
  have cfg : t.received.cfg = s.cfg := t.received_cfg
  rw [← base, ← target]
  exact ⟨t, t.received, t.received.returned, exec_call_eq_called inRange,
    exec_input_eq_received t x,
    exec_ret_of_readable received (by rw [cfg]; omega)
      (by rw [above, cfg, ← State.sp_received]; omega),
    received.bp_returned, received.ip_returned, received.sp_returned⟩

end Machine

end Sys2Proof
end

section
/-! ### `out` (spec/45_output_input.md R140; spec/90_conflicts.md C14)

What one pass appends is `State.chars`, and where it stops is `State.FirstZeroAt`. -/

namespace Sys2Proof

namespace Machine

/-- R33, R140: the entries of the `n` bytes from `a` upward. -/
def State.chars (s : State) (a : Word) (n : Nat) : List OutEntry :=
  (List.range n).map fun m => .char (s.readByte (addW a m))

@[simp] theorem State.length_chars (s : State) (a : Word) (n : Nat) : (s.chars a n).length = n := by
  simp [State.chars]

/-- R140: from `a` upward, `k` bytes stand before the first zero byte. -/
structure State.FirstZeroAt (s : State) (a : Word) (k : Nat) : Prop where
  zero : s.readByte (addW a k) = 0
  before : ∀ m, m < k → s.readByte (addW a m) ≠ 0

theorem State.FirstZeroAt.le {s : State} {a : Word} {k m : Nat} (first : s.FirstZeroAt a k)
    (zero : s.readByte (addW a m) = 0) : k ≤ m :=
  Nat.not_lt.1 fun below => first.before m below zero

theorem State.FirstZeroAt.unique {s : State} {a : Word} {k l : Nat} (hk : s.FirstZeroAt a k)
    (hl : s.FirstZeroAt a l) : k = l :=
  Nat.le_antisymm (hk.le hl.zero) (hl.le hk.zero)

/-! #### Where the zero bytes are -/

/-- R6, R42: from any address upward, the addresses reach every physical byte. -/
theorem State.Wf.exists_phys_addW {s : State} (h : s.Wf) (a : Word) {j : Nat}
    (inside : j < s.cfg.memSize) : ∃ k, k < 65536 ∧ s.phys (addW a k).toNat = j := by
  obtain ⟨-, memSize_le, -⟩ := Config.wf_bounds h.cfg_wf
  have ha := a.isLt
  have distance : (addW a ((65536 - a.toNat + j) % 65536)).toNat = j := by
    rw [addW_toNat]; omega
  exact ⟨_, Nat.mod_lt _ (by decide), by rw [distance, State.phys_of_lt inside]⟩

theorem State.Wf.hasZeroByte_iff {s : State} (h : s.Wf) (a : Word) :
    s.HasZeroByte ↔ ∃ k, k < 65536 ∧ s.readByte (addW a k) = 0 := by
  constructor
  · rintro ⟨j, inside, zero⟩
    obtain ⟨k, hk, reach⟩ := h.exists_phys_addW a inside
    exact ⟨k, hk, by rw [State.readByte, reach, zero]⟩
  · rintro ⟨k, -, zero⟩
    exact ⟨_, State.phys_lt h.cfg_wf _, zero⟩

/-- C14: where MEMSIZE divides 65536, MEMSIZE addresses on lies the same physical byte, also past
0xFFFF. -/
theorem State.readByte_addW_add_memSize {s : State} (divides : 65536 % s.cfg.memSize = 0)
    (a : Word) (k : Nat) :
    s.readByte (addW a (k + s.cfg.memSize)) = s.readByte (addW a k) := by
  have dvd : s.cfg.memSize ∣ 65536 := Nat.dvd_of_mod_eq_zero divides
  simp only [State.readByte, State.phys, addW_toNat, Nat.mod_mod_of_dvd _ dvd]
  rw [← Nat.add_assoc, Nat.add_mod_right]

/-- C14: where MEMSIZE divides 65536, the first zero byte is met within MEMSIZE addresses. -/
theorem State.FirstZeroAt.lt_memSize {s : State} {a : Word} {k : Nat} (first : s.FirstZeroAt a k)
    (hs : s.Wf) (divides : 65536 % s.cfg.memSize = 0) : k < s.cfg.memSize := by
  obtain ⟨two_le, -⟩ := Config.wf_bounds hs.cfg_wf
  by_contra beyond
  obtain ⟨m, rfl⟩ := Nat.exists_eq_add_of_le' (Nat.not_lt.1 beyond)
  have earlier : s.readByte (addW a m) = 0 :=
    (State.readByte_addW_add_memSize divides a m).symm.trans first.zero
  have := first.le earlier
  omega

/-! #### One pass -/

/-- R140: one pass of `out` appends the string and is done, or appends the bytes of all addresses
and is not. -/
theorem State.outFrom_cases (s : State) (a : Word) :
    (∃ k, k < 65536 ∧ s.FirstZeroAt a k ∧
        s.outFrom a = { s.emit (s.chars a k) with outScan := none }) ∨
      ((∀ m, m < 65536 → s.readByte (addW a m) ≠ 0) ∧
        s.outFrom a = { s.emit (s.chars a 65536) with outScan := some a }) := by
  rcases s.outFrom_eq a with ⟨k, hk, zero, before, pass⟩ | ⟨noZero, pass⟩
  · exact .inl ⟨k, hk, ⟨zero, before⟩, pass⟩
  · exact .inr ⟨noZero, pass⟩

theorem State.outFrom_of_firstZeroAt {s : State} {a : Word} {k : Nat} (hk : k < 65536)
    (first : s.FirstZeroAt a k) :
    s.outFrom a = { s.emit (s.chars a k) with outScan := none } := by
  rcases s.outFrom_cases a with ⟨l, -, first', pass⟩ | ⟨noZero, -⟩
  · rw [pass, first.unique first']
  · exact absurd first.zero (noZero k hk)

theorem State.outFrom_of_noZero {s : State} {a : Word}
    (noZero : ∀ m, m < 65536 → s.readByte (addW a m) ≠ 0) :
    s.outFrom a = { s.emit (s.chars a 65536) with outScan := some a } := by
  rcases s.outFrom_cases a with ⟨k, hk, first, -⟩ | ⟨-, pass⟩
  · exact absurd first.zero (noZero k hk)
  · exact pass

/-- R140: a pass that completes has appended the bytes before the first zero byte. -/
theorem State.length_outFrom_of_completed {s : State} {a : Word}
    (done : (s.outFrom a).outScan = none) :
    ∃ k, k < 65536 ∧ s.FirstZeroAt a k ∧
      (s.outFrom a).output.length = s.output.length + k := by
  rcases s.outFrom_cases a with ⟨k, hk, first, pass⟩ | ⟨-, pass⟩
  · exact ⟨k, hk, first, by simp [pass]⟩
  · simp [pass] at done

/-- R140: a pass completes exactly when some byte of memory is zero. -/
theorem State.Wf.outScan_outFrom_eq_none_iff {s : State} (h : s.Wf) (a : Word) :
    (s.outFrom a).outScan = none ↔ s.HasZeroByte := by
  rw [h.hasZeroByte_iff a]
  constructor
  · intro done
    obtain ⟨k, hk, first, -⟩ := State.length_outFrom_of_completed done
    exact ⟨k, hk, first.zero⟩
  · rintro ⟨k, hk, zero⟩
    rcases s.outFrom_cases a with ⟨_, -, -, pass⟩ | ⟨noZero, -⟩
    · rw [pass]
    · exact absurd zero (noZero k hk)

/-! #### The instruction -/

theorem exec_out (s : State) (a : Word) :
    exec (.out a) s = .next ((s.advance .out).outFrom a) := rfl

theorem eq_outFrom_of_exec_out {s t : State} {a : Word} (h : exec (.out a) s = .next t) :
    t = (s.advance .out).outFrom a := by
  rw [exec_out] at h
  injection h with h
  exact h.symm

/-- Settles O45: the pass starts after the advance, which touches no memory. -/
theorem outAppendsTheString : Obligations.OutAppendsTheString := fun s a hs =>
  ⟨fun _ => rfl,
    fun _ hk zero before => congrArg Host.Outcome.next <|
      State.outFrom_of_firstZeroAt (s := s.advance .out) hk ⟨zero, before⟩,
    fun noZero => congrArg Host.Outcome.next <|
      State.outFrom_of_noZero (s := s.advance .out) noZero,
    fun fetches opcode =>
      step_of_unreadable (o := .out) (before := []) hs fetches opcode rfl (by simp)⟩

/-- Settles O46: the addresses of one pass reach every physical byte, and the advance touches none
of them. -/
theorem outCompletesIffSomeByteIsZero : Obligations.OutCompletesIffSomeByteIsZero := by
  intro s t a hs hexec
  rw [eq_outFrom_of_exec_out hexec]
  exact (hs.advance .out).outScan_outFrom_eq_none_iff a

/-- Settles O47: as many entries are appended as bytes stand before the first zero byte, which is
met within one pass over the addresses, and within MEMSIZE of them where they reach the physical
bytes in cyclic order. -/
theorem completedOutIsBounded : Obligations.CompletedOutIsBounded := by
  intro s t a hs hexec done
  obtain rfl := eq_outFrom_of_exec_out hexec
  obtain ⟨k, hk, first, length⟩ := State.length_outFrom_of_completed done
  rw [length, State.advance_output]
  refine ⟨by omega, fun divides => ?_⟩
  have within : k < s.cfg.memSize := first.lt_memSize (hs.advance .out) divides
  omega

/-! #### An `out` that does not complete -/

/-- R85, R140: a step of an uncompleted `out` over a memory without a zero byte appends one pass and
does nothing else. -/
theorem State.Wf.step_of_diverging {s : State} {a : Word} (h : s.Wf) (scan : s.outScan = some a)
    (noZero : ¬ s.HasZeroByte) : step s = .next (s.emit (s.chars a 65536)) := by
  have running : s.status = .running := by
    obtain ⟨-, -, -, -, -, -, whileRunning⟩ := h
    exact whileRunning (by simp [scan])
  have started : s.startRun = s := by rw [State.startRun, ← running]
  have pass : s.outFrom a = s.emit (s.chars a 65536) := by
    rw [State.outFrom_of_noZero fun m hm zero => noZero ((h.hasZeroByte_iff a).2 ⟨m, hm, zero⟩),
      ← scan]
    rfl
  rw [step_of_active h.cfg_wf (.inr running), started, engineStep_of_outScan scan, pass,
    State.afterHandler_of_not_completed (by simp [scan])]

theorem State.emit_emit (s : State) (es fs : List OutEntry) :
    (s.emit es).emit fs = s.emit (es ++ fs) := by
  simp [State.emit]

/-- R140: each step of a diverging `out` leaves it diverging. -/
theorem State.Wf.run_of_diverging {s : State} {a : Word} (h : s.Wf) (scan : s.outScan = some a)
    (noZero : ¬ s.HasZeroByte) (n : Nat) :
    ∃ es : List OutEntry, Sys2Proof.core.run n s = .next (s.emit es) ∧ es.length = n * 65536 := by
  induction n generalizing s with
  | zero => exact ⟨[], by simp [Host.Core.run, State.emit], by simp⟩
  | succ n ih =>
    obtain ⟨es, run, length⟩ := ih (h.emit (s.chars a 65536)) scan noZero
    refine ⟨s.chars a 65536 ++ es, ?_, ?_⟩
    · rw [core_run_succ (h.step_of_diverging scan noZero), run, State.emit_emit]
    · rw [List.length_append, State.length_chars, length]
      omega

/-- Settles O48, by induction on the number of steps. -/
theorem divergingOutNeverReachesABoundary : Obligations.DivergingOutNeverReachesABoundary := by
  intro s a n hs scan noZero
  obtain ⟨es, run, length⟩ := hs.run_of_diverging scan noZero n
  exact ⟨s.emit es, run, rfl, by rw [State.emit_output, List.length_append, length]⟩

/-- R140: an uncompleted `out` means that no byte of memory is zero. -/
def State.ScansNoZeroByte (s : State) : Prop := s.outScan ≠ none → ¬ s.HasZeroByte

theorem State.scansNoZeroByte_of_noScan {s : State} (noScan : s.outScan = none) :
    s.ScansNoZeroByte := fun scan => absurd noScan scan

theorem State.Wf.scansNoZeroByte_outFrom {s : State} (h : s.Wf) (a : Word) :
    (s.outFrom a).ScansNoZeroByte :=
  fun scan zero => scan ((h.outScan_outFrom_eq_none_iff a).2 zero)

theorem State.ScansNoZeroByte.afterHandler {s : State} (h : s.ScansNoZeroByte) :
    s.afterHandler.ScansNoZeroByte := by
  rcases s.afterHandler_cases with e | e | ⟨-, -, e⟩ <;> rw [e] <;> exact h

/-- R140: only an `out` can leave one uncompleted. -/
theorem Effect.Allowed.outScan {i : Instr} {s : State} {e : Effect} (h : e.Allowed i s) :
    (e.apply s).outScan = s.outScan ∨ ∃ a, i = .out a := by
  cases h with
  | store | fault | halt => exact .inl rfl
  | print isOut => exact .inr isOut

theorem State.Wf.scansNoZeroByte_of_exec {s t : State} {i : Instr} (h : s.Wf)
    (noScan : s.outScan = none) (hexec : exec i s = .next t) : t.ScansNoZeroByte := by
  obtain ⟨e, allowed, effect⟩ := exec_eq_next hexec
  rcases allowed.outScan with same | ⟨a, rfl⟩
  · exact State.scansNoZeroByte_of_noScan (by rw [effect, same, noScan])
  · rw [eq_outFrom_of_exec_out hexec]
    exact (h.advance .out).scansNoZeroByte_outFrom a

/-- Settles O49: a pass is left uncompleted only over a memory without a zero byte, and whatever else
a step does leaves no `out` uncompleted. -/
theorem uncompletedOutMeansNoZeroByte : Obligations.UncompletedOutMeansNoZeroByte := by
  intro s t hs scans hstep
  change t.ScansNoZeroByte
  obtain ⟨-, ⟨-, rfl⟩ | ⟨active, cycle⟩⟩ := step_eq hstep
  · exact scans
  have started := hs.startRun active
  rcases cycle with ⟨a, -, rfl⟩ | ⟨noScan, ⟨op, -, rfl⟩ | ⟨a, -, rfl⟩ | ⟨i, u, -, hexec, rfl⟩⟩
  · exact (started.scansNoZeroByte_outFrom a).afterHandler
  · exact State.scansNoZeroByte_of_noScan noScan
  · exact State.scansNoZeroByte_of_noScan noScan
  · exact (started.scansNoZeroByte_of_exec noScan hexec).afterHandler

end Machine

end Sys2Proof
end

section
/-! ### `input` (spec/45_output_input.md R141) -/

namespace Sys2Proof

namespace Machine

/-- R141: an `input` changes memory and, by the cycle's advance, the instruction pointer. -/
theorem State.received_eq (s : State) :
    s.received = { s with regs := s.received.regs, mem := s.received.mem } := by
  unfold State.received
  generalize Config.inputLen = n
  rw [State.copyInput_eq]
  rfl

theorem State.Wf.ip_received {s : State} (h : s.Wf) : s.received.ip = addW s.ip 2 :=
  (State.getReg_copyInput _ _ _ 0).trans (h.ip_advance .input)

theorem State.sameRegsExcept_received (s : State) : s.SameRegsExcept s.received [0] := by
  obtain ⟨length, regs⟩ := s.sameRegsExcept_advance .input
  exact ⟨by rw [State.received, State.copyInput_regs, length],
    fun r notListed => (State.getReg_copyInput _ _ _ r).trans (regs r notListed)⟩

/-- R141: the memory an `input` leaves is that of the whole copy. -/
theorem State.received_mem (s : State) :
    s.received.mem = ((s.advance .input).copyInput s.sp 260).mem := by
  rw [State.received, State.sp_advance, Config.inputLen]

/-- Settles O50: `u i` is the memory of the copy's first `i` bytes. -/
theorem inputCopiesAscending : Obligations.InputCopiesAscending := by
  intro s x hs
  refine ⟨fun _ => rfl, s.received, fun i => ((s.advance .input).copyInput s.sp i).mem.read,
    exec_input_eq_received s x, s.received_eq, hs.ip_received, s.sameRegsExcept_received,
    fun _ => rfl, fun i _ j => ?_, fun _ => by rw [s.received_mem]⟩
  exact (hs.advance .input).read_copyInput_succ s.sp i j

/-- Settles O51: the memory after the whole copy, read inside and outside the destination. -/
theorem inputCopiesTheBlockWhenApart : Obligations.InputCopiesTheBlockWhenApart := by
  intro s x hs source bottom top apart
  have read := fun j => (hs.advance .input).read_copyInput_of_apart source bottom top apart
    (n := 260) le_rfl j
  refine ⟨s.received, exec_input_eq_received s x, fun i hi => ?_, fun j outside => ?_⟩
  · rw [s.received_mem, read, if_pos (by omega), Nat.add_sub_cancel_left, State.advance_mem]
  · rw [s.received_mem, read, if_neg (by omega), State.advance_mem]

end Machine

end Sys2Proof
end

section
/-! ### How execution ends (spec/60_exceptions.md R150 to R158) -/

namespace Sys2Proof

/-! #### The error of an operand read -/

/-- Every error of `x` is the error of some word field. -/
def FailsAtWord {ε α : Type} (wordAt : Nat → Except ε Word) (x : Except ε α) : Prop :=
  ∀ e, x = .error e → ∃ k, wordAt k = .error e

theorem FailsAtWord.ok {ε α : Type} (wordAt : Nat → Except ε Word) (a : α) :
    FailsAtWord wordAt (.ok a) := nofun

theorem FailsAtWord.word {ε : Type} (wordAt : Nat → Except ε Word) (k : Nat) :
    FailsAtWord wordAt (wordAt k) := fun _ h => ⟨k, h⟩

theorem FailsAtWord.bind {ε α β : Type} {wordAt : Nat → Except ε Word} {x : Except ε α}
    {f : α → Except ε β} (hx : FailsAtWord wordAt x) (hf : ∀ a, FailsAtWord wordAt (f a)) :
    FailsAtWord wordAt (x >>= f) := by
  cases x with
  | error e => exact fun _ failed => hx _ (congrArg Except.error (Except.error.inj failed))
  | ok a => exact hf a

/-- R81: where every byte field can be read, a row's operand read fails only at a word field. -/
theorem Opcode.readOperands_failsAtWord {ε : Type} (order : WbOrder) (o : Opcode)
    {byteAt : Nat → Except ε Byte} {wordAt : Nat → Except ε Word}
    (bytes : ∀ k, ∃ b, byteAt k = .ok b) :
    FailsAtWord wordAt (o.readOperands order byteAt wordAt) := by
  have byte : ∀ k, FailsAtWord wordAt (byteAt k) := fun k => by
    obtain ⟨b, read⟩ := bytes k
    exact read ▸ .ok _ b
  have word := FailsAtWord.word wordAt
  cases o with
  | halt | ret | noop => exact .ok _ _
  | push | pop | call | input => exact (byte 1).bind fun _ => .ok _ _
  | out => exact (word 1).bind fun _ => .ok _ _
  | mov => exact (word 1).bind fun _ => (byte 3).bind fun _ => .ok _ _
  | writeWord => exact (word 1).bind fun _ => (word 3).bind fun _ => .ok _ _
  | writeByte =>
    cases order with
    | byteFirst => exact (byte 1).bind fun _ => (word 2).bind fun _ => .ok _ _
    | wordFirst => exact (word 1).bind fun _ => (byte 3).bind fun _ => .ok _ _

namespace Machine

/-! #### The unknown opcode -/

/-- Settles O14: the byte has no row, and in a block that fetches no halt reason is recorded that
would be kept. -/
theorem unknownOpcodeHalts : Obligations.UnknownOpcodeHalts := by
  intro s hs ⟨active, noScan⟩ unknown
  have noReason : s.haltReason = none :=
    hs.haltReason_eq_none (by rcases active with h | h <;> simp [h])
  have fetched : s.startRun.fetch = .unknown (s.readByte s.ip) :=
    State.fetch_of_unknown (opcodeOf_eq_none_iff.2 unknown)
  rw [step_of_active hs.cfg_wf active, engineStep_of_unknown (s := s.startRun) noScan fetched,
    State.unknownOpcode, State.halt, State.emit_haltReason, State.startRun_haltReason, noReason]
  rfl

/-! #### Which handler raises which fault -/

/-- R152 to R154: `t` is what a fault of the handler of `i` leaves of `s`: memory and output as they
were, and the record of a fault that this handler can raise. -/
def State.FaultsInto (s : State) (i : Instr) (t : State) : Prop :=
  t.mem = s.mem ∧ t.output = s.output ∧
    ((∃ r, (i = .push r ∨ i = .pop r ∨ i = .call r ∨ ∃ v, i = .mov v r) ∧
        s.cfg.nreg ≤ r.toNat ∧
        t.faultRecord = some { kind := .illegalRegister r, opcodeAddr := s.ip }) ∨
      ((i = .ret ∨ ∃ r, i = .pop r) ∧ ∃ a, s.cfg.memSize ≤ a.toNat + 1 ∧
        t.faultRecord = some { kind := .boundsFault a, opcodeAddr := s.ip }))

theorem State.faultsInto_boundsFault {s u : State} {i : Instr} {a : Word}
    (pops : i = .ret ∨ ∃ r, i = .pop r) (mem : u.mem = s.mem) (output : u.output = s.output)
    (top : s.cfg.memSize ≤ a.toNat + 1) :
    s.FaultsInto i (u.takeFault (.boundsFault a) s.ip) :=
  ⟨mem, output, .inr ⟨pops, a, top, rfl⟩⟩

/-- R83, R152, R153: the handler of `i` answers, with a state that is not Faulted or with one that a
fault of this handler leaves. -/
def State.RaisesOnlyFaultsOf (s : State) (i : Instr) : Prop :=
  ∃ t, exec i s = .next t ∧ (t.status ≠ .faulted ∨ s.FaultsInto i t)

/-- R67, R153: an instruction with a register index that is checked first. -/
theorem State.RaisesOnlyFaultsOf.indexed {s : State} {i : Instr} {r : RegIndex} {o : Opcode}
    (operand : i = .push r ∨ i = .pop r ∨ i = .call r ∨ ∃ v, i = .mov v r)
    (illegal : s.cfg.nreg ≤ r.toNat →
      exec i s = .next ((s.advance o).takeFault (.illegalRegister r) s.ip))
    (legal : r.toNat < s.cfg.nreg → s.RaisesOnlyFaultsOf i) : s.RaisesOnlyFaultsOf i := by
  rcases Nat.lt_or_ge r.toNat s.cfg.nreg with h | h
  · exact legal h
  · exact ⟨_, illegal h, .inr ⟨rfl, rfl, .inl ⟨r, operand, h, rfl⟩⟩⟩

theorem State.raisesOnlyFaultsOf_pop {s : State} (notFaulted : s.status ≠ .faulted)
    (r : RegIndex) : s.RaisesOnlyFaultsOf (.pop r) := by
  refine .indexed (.inr (.inl rfl)) (exec_pop_illegal s) fun legal => ?_
  rcases Nat.lt_or_ge (s.sp.toNat + 1) s.cfg.memSize with readable | top
  · exact ⟨_, exec_pop_of_readable legal readable, .inl notFaulted⟩
  · exact ⟨_, exec_pop_of_unreadable legal top,
      .inr (State.faultsInto_boundsFault (.inr ⟨r, rfl⟩) rfl rfl top)⟩

theorem State.raisesOnlyFaultsOf_ret {s : State} (notFaulted : s.status ≠ .faulted) :
    s.RaisesOnlyFaultsOf .ret := by
  rcases Nat.lt_or_ge (s.sp.toNat + 1) s.cfg.memSize with first | top
  · rcases Nat.lt_or_ge (s.popBase.sp.toNat + 1) s.cfg.memSize with second | top
    · exact ⟨_, exec_ret first second, .inl notFaulted⟩
    · exact ⟨_, exec_ret_of_second_unreadable first top,
        .inr (State.faultsInto_boundsFault (.inl rfl) rfl rfl top)⟩
  · exact ⟨_, exec_ret_of_first_unreadable top,
      .inr (State.faultsInto_boundsFault (.inl rfl) rfl rfl top)⟩

theorem exec_raisesOnlyFaultsOf {s : State} (notFaulted : s.status ≠ .faulted) (i : Instr) :
    s.RaisesOnlyFaultsOf i := by
  cases i with
  | halt => exact ⟨_, exec_halt s, .inl nofun⟩
  | noop => exact ⟨_, exec_noop s, .inl notFaulted⟩
  | out a => exact ⟨_, exec_out s a, .inl (by simpa using notFaulted)⟩
  | writeWord v a => exact ⟨_, exec_writeWord s v a, .inl notFaulted⟩
  | writeByte v a => exact ⟨_, exec_writeByte s v a, .inl notFaulted⟩
  | input x => exact ⟨_, exec_input s x, .inl (by simpa using notFaulted)⟩
  | push r =>
    exact .indexed (.inl rfl) (exec_push_illegal s) fun legal =>
      ⟨_, exec_push s legal, .inl notFaulted⟩
  | pop r => exact State.raisesOnlyFaultsOf_pop notFaulted r
  | mov v r =>
    exact .indexed (.inr (.inr (.inr ⟨v, rfl⟩))) (exec_mov_illegal s) fun legal =>
      ⟨_, exec_mov s legal, .inl notFaulted⟩
  | call r =>
    exact .indexed (.inr (.inr (.inl rfl))) (exec_call_illegal s) fun legal =>
      ⟨_, exec_call s legal, .inl notFaulted⟩
  | ret => exact State.raisesOnlyFaultsOf_ret notFaulted

/-- Settles O23: the handler's one answer is Faulted only by one of its faults. -/
theorem handlersRaiseOnlyTheirFaults : Obligations.HandlersRaiseOnlyTheirFaults := by
  intro i s t notFaulted hexec faulted
  obtain ⟨u, answer, outcome⟩ := exec_raisesOnlyFaultsOf notFaulted i
  obtain rfl : t = u := Host.Outcome.next.inj (hexec.symm.trans answer)
  exact outcome.resolve_left (absurd faulted)

/-! #### The fault in decode -/

/-- R81, R152: a fetch faults only at a word that cannot be read. -/
theorem State.memSize_le_of_fetch_bounds {s : State} {a : Word} (h : s.fetch = .bounds a) :
    s.cfg.memSize ≤ a.toNat + 1 := by
  rcases s.fetch_eq with ⟨-, e⟩ | ⟨o, i, -, -, e⟩ | ⟨o, b, -, fields, e⟩
  · exact absurd (h.symm.trans e) nofun
  · exact absurd (h.symm.trans e) nofun
  obtain rfl : a = b := Fetched.bounds.inj (h.symm.trans e)
  obtain ⟨k, failed⟩ := o.readOperands_failsAtWord s.cfg.wbOrder (fun _ => ⟨_, rfl⟩) a fields
  cases readable : s.wordReadable (addW s.ip k) with
  | true => exact absurd ((State.wordOperand_ok readable).symm.trans failed) nofun
  | false =>
    obtain rfl : addW s.ip k = a :=
      Except.error.inj ((State.wordOperand_error readable).symm.trans failed)
    simpa [State.wordReadable] using readable

/-! #### The ways a step can end -/

/-- R100: only `halt` halts in its handler. -/
theorem eq_halt_of_exec_halted {i : Instr} {s t : State} (running : s.status = .running)
    (hexec : exec i s = .next t) (halted : t.status = .halted) : i = .halt := by
  obtain ⟨e, allowed, rfl⟩ := exec_eq_next hexec
  cases allowed with
  | store | print => exact absurd (running.symm.trans halted) nofun
  | fault => exact absurd halted nofun
  | halt isHalt => exact isHalt

/-- R150: what a step that fetches leaves: a Running block that fetches again, an `out` that has not
completed, or one of the five ends. -/
inductive State.StepEnds (s t : State) : Prop
  /-- R155: the boundary drew false. -/
  | goesOn (status : t.status = .running) (scan : t.outScan = none)
      (draw : s.timeoutAfter = t.timeoutAfter + 1)
  | diverges (status : t.status = .running) (scan : t.outScan ≠ none)
  | explicitHalt (status : t.status = .halted) (reason : t.haltReason = some .explicit)
      (cause : s.fetch = .instr .halt)
  | unknownOpcode (status : t.status = .halted) (reason : t.haltReason = some .unknownOpcode)
      (cause : ∃ op, s.fetch = .unknown op)
  | timeout (status : t.status = .halted) (reason : t.haltReason = some .timeout)
      (cause : s.TimesOut)
  | boundsFault {a : Word} (status : t.status = .faulted) (cause : s.cfg.memSize ≤ a.toNat + 1)
      (record : t.faultRecord = some { kind := .boundsFault a, opcodeAddr := s.ip })
  | illegalRegister {r : RegIndex} (status : t.status = .faulted) (cause : s.cfg.nreg ≤ r.toNat)
      (record : t.faultRecord = some { kind := .illegalRegister r, opcodeAddr := s.ip })

/-- R83, R84: the step of an instruction, by the status its handler leaves. -/
theorem State.Wf.stepEnds_of_instr {s t u : State} {i : Instr} (hs : s.Wf) (fetches : s.Fetches)
    (fetched : s.fetch = .instr i) (hexec : exec i s.startRun = .next u)
    (hstep : step s = .next t) : s.StepEnds t := by
  have answer : ∀ {v}, step s = .next v → t = v := fun h =>
    Host.Outcome.next.inj (hstep.symm.trans h)
  obtain ⟨timesOut, goesOn, halts, faults, diverges⟩ :=
    boundaryCountsAndTimesOut s u i hs fetches fetched hexec
  cases status : u.status with
  | ready =>
    obtain ⟨e, -, rfl⟩ := exec_eq_next hexec
    exact absurd status (Effect.apply_status_ne_ready rfl e)
  | running =>
    by_cases scan : u.outScan = none
    · by_cases times : s.TimesOut
      · rw [answer (timesOut status scan times)]
        exact .timeout rfl rfl times
      · rw [answer (goesOn status scan times)]
        have drawsFalse : s.timeoutAfter ≠ 0 := fun h => times (.inl h)
        exact .goesOn status scan (by simp only; omega)
    · rw [answer (diverges scan)]
      exact .diverges status scan
  | halted =>
    obtain ⟨reason, next⟩ := halts status
    rw [answer next]
    exact .explicitHalt status reason (eq_halt_of_exec_halted rfl hexec status ▸ fetched)
  | faulted =>
    rw [answer (faults status)]
    obtain ⟨-, -, ⟨r, -, cause, record⟩ | ⟨-, a, cause, record⟩⟩ :=
      handlersRaiseOnlyTheirFaults i s.startRun u nofun hexec status
    · exact .illegalRegister status cause record
    · exact .boundsFault status cause record

theorem State.Wf.stepEnds {s t : State} (hs : s.Wf) (fetches : s.Fetches)
    (hstep : step s = .next t) : s.StepEnds t := by
  have ⟨active, noScan⟩ := fetches
  obtain ⟨-, ⟨terminal, -⟩ | ⟨-, ⟨a, scan, -⟩ | ⟨-, cycle⟩⟩⟩ := step_eq hstep
  · rcases terminal with h | h <;> simp [h] at active
  · simp [noScan] at scan
  rcases cycle with ⟨op, fetched, rfl⟩ | ⟨a, fetched, rfl⟩ | ⟨i, u, fetched, hexec, -⟩
  · have noReason := (hs.startRun active).haltReason_eq_none nofun
    refine .unknownOpcode rfl ?_ ⟨op, fetched⟩
    rw [State.unknownOpcode, State.halt_haltReason, State.emit_haltReason, noReason]
    rfl
  · exact .boundsFault rfl (State.memSize_le_of_fetch_bounds fetched) rfl
  · exact hs.stepEnds_of_instr fetches fetched hexec hstep

/-- Settles O22: each end has its status, and the halted flag follows the status by the
invariant. -/
theorem executionEndsInOneOfFiveWays : Obligations.ExecutionEndsInOneOfFiveWays := by
  intro s t hs fetches hstep
  obtain ⟨-, -, -, flag, -⟩ := stepKeepsTheInvariant s t hs hstep
  have notHalted : t.status = .faulted → t.halted = false := fun status => by
    simpa [status] using flag
  cases hs.stepEnds fetches hstep with
  | goesOn status | diverges status => exact .inl status
  | explicitHalt status reason cause =>
    exact .inr (.inl ⟨status, flag.2 status, reason, cause⟩)
  | unknownOpcode status reason cause =>
    exact .inr (.inr (.inl ⟨status, flag.2 status, reason, cause⟩))
  | timeout status reason cause =>
    exact .inr (.inr (.inr (.inl ⟨status, flag.2 status, reason, cause⟩)))
  | boundsFault status cause record =>
    exact .inr (.inr (.inr (.inr (.inl ⟨status, notHalted status, _, cause, record⟩))))
  | illegalRegister status cause record =>
    exact .inr (.inr (.inr (.inr (.inr ⟨status, notHalted status, _, cause, record⟩))))

/-! #### The environment's draws of `timeout` -/

/-- Settles O59: the count is the place of the sequence's first true draw. -/
theorem timeoutDrawsAreFair : Obligations.TimeoutDrawsAreFair := by
  refine ⟨State.timeoutAt_eventually, fun s draw fair => ⟨Nat.find fair, Nat.find_spec fair, ?_⟩⟩
  intro k hk
  rcases hk.lt_or_eq with before | rfl
  · have drawsFalse : draw k = false := by simpa using Nat.find_min fair before
    rw [drawsFalse]
    exact decide_eq_false (Nat.not_le.2 before)
  · rw [Nat.find_spec fair]
    exact decide_eq_true le_rfl

/-- R155: a step that fetches ends the run, or diverges in an `out`, or uses up one false draw and
fetches again. -/
theorem State.StepEnds.ends_or_fetches {s t : State} (h : s.StepEnds t) :
    (t.Ended ∨ t.Crashed ∨ t.outScan ≠ none) ∨
      t.Fetches ∧ s.timeoutAfter = t.timeoutAfter + 1 := by
  cases h with
  | goesOn status scan draw => exact .inr ⟨⟨.inr status, scan⟩, draw⟩
  | diverges _ scan => exact .inl (.inr (.inr scan))
  | explicitHalt status | unknownOpcode status | timeout status => exact .inl (.inl status)
  | boundsFault status | illegalRegister status => exact .inl (.inr (.inl status))

/-- Settles O31, by induction on the number of false draws left. -/
theorem aTrueTimeoutDrawEndsTheRun : Obligations.ATrueTimeoutDrawEndsTheRun := by
  intro s hs fetches
  induction draws : s.timeoutAfter using Nat.strong_induction_on generalizing s with
  | _ k ih =>
    obtain ⟨t, hstep⟩ := stepAlwaysHasANextState s hs.cfg_wf
    rcases (hs.stepEnds fetches hstep).ends_or_fetches with ends | ⟨fetches_t, draw⟩
    · exact ⟨1, t, by omega, core_run_succ hstep, ends⟩
    · obtain ⟨n, u, within, run, ends⟩ :=
        ih t.timeoutAfter (by omega) t (stepKeepsTheInvariant s t hs hstep) fetches_t rfl
      exact ⟨n + 1, u, by omega, (core_run_succ hstep).trans run, ends⟩

/-! #### The step budget -/

/-- R156: the budget lets one more instruction complete. -/
def State.BudgetLeft (s : State) : Prop := ∀ n, s.cfg.stepBudget = some n → s.icount < n

theorem State.WithinBudget.budgetLeft {s : State} (h : s.WithinBudget)
    (active : s.status = .ready ∨ s.status = .running) : s.BudgetLeft := fun n budget => by
  obtain ⟨-, below⟩ := h n budget
  exact below active

theorem State.BudgetLeft.withinBudget {s : State} (h : s.BudgetLeft) : s.WithinBudget :=
  fun n budget => ⟨(h n budget).le, fun _ => h n budget⟩

theorem State.BudgetLeft.congr {s t : State} (h : s.BudgetLeft) (cfg : t.cfg = s.cfg)
    (icount : t.icount = s.icount) : t.BudgetLeft := by
  rw [State.BudgetLeft, cfg, icount]
  exact h

/-- R84, R156: the boundary counts one instruction, and goes on Running only where the budget is not
spent by it. -/
theorem State.BudgetLeft.withinBudget_boundary {s : State} (h : s.BudgetLeft)
    (started : s.status ≠ .ready) : s.boundary.WithinBudget := by
  intro n
  by_cases out : s.status = .running ∧ s.TimesOut
  · obtain ⟨running, times⟩ := out
    rw [State.boundary_of_timesOut running times]
    exact fun budget => ⟨h n budget, by simp⟩
  · rw [State.boundary_of_not out]
    refine fun budget => ⟨h n budget, fun active => ?_⟩
    have running : s.status = .running := active.resolve_left started
    exact Nat.lt_of_not_le fun spent => out ⟨running, .inr ⟨n, budget, spent⟩⟩

theorem State.BudgetLeft.withinBudget_afterHandler {s : State} (h : s.BudgetLeft)
    (started : s.status ≠ .ready) : s.afterHandler.WithinBudget := by
  rcases s.afterHandler_eq with ⟨-, e⟩ | ⟨-, e⟩ <;> rw [e]
  · exact h.withinBudget_boundary started
  · exact h.withinBudget

/-- Settles O29: a block that may run has budget left, no handler counts, and the boundary keeps the
budget. -/
theorem stepKeepsWithinTheBudget : Obligations.StepKeepsWithinTheBudget := by
  intro s t _ within hstep
  obtain ⟨-, ⟨-, rfl⟩ | ⟨active, cycle⟩⟩ := step_eq hstep
  · exact within
  have left : s.startRun.BudgetLeft := within.budgetLeft active
  rcases cycle with ⟨a, -, rfl⟩ | ⟨-, ⟨op, -, rfl⟩ | ⟨a, -, rfl⟩ | ⟨i, u, -, hexec, rfl⟩⟩
  · exact (left.congr (State.outFrom_cfg _ a) (State.outFrom_icount _ a)).withinBudget_afterHandler
      (by simp)
  · exact (left.congr (t := s.startRun.unknownOpcode op) rfl rfl).withinBudget
  · exact (left.congr (t := s.startRun.takeFault _ _) rfl rfl).withinBudget
  · obtain ⟨e, -, rfl⟩ := exec_eq_next hexec
    obtain ⟨cfg, -, icount, -⟩ := e.apply_frame s.startRun
    exact (left.congr cfg icount).withinBudget_afterHandler (Effect.apply_status_ne_ready rfl e)

end Machine

end Sys2Proof
end

section
/-! ### The loader (spec/70_reset_and_hazards.md section 1, R180 to R186)

What a block placed by the loader reads back as, what `loadProgram` and `loadData` answer by status,
and the statements about Construct, LoadProgram and LoadData. -/

namespace Sys2Proof

namespace Machine

/-! #### The bytes of a block -/

theorem State.Wf.writeByte {s : State} (h : s.Wf) (a : Word) (v : Byte) : (s.writeByte a v).Wf :=
  h.update rfl (State.writeByte_wf h.cfg_wf h.mem_wf a v) _ _ _ _

/-- R183: a physical byte that no address of the block falls on is left as it was. -/
theorem State.Wf.read_loadBytes_of_ne {s : State} (h : s.Wf) (a : Word) (n : Nat)
    (bytes : List Byte) {j : Nat}
    (outside : ∀ i, i < bytes.length → s.phys (addW a (n + i)).toNat ≠ j) :
    (s.loadBytes a n bytes).mem.read j = s.mem.read j := by
  induction bytes generalizing s n with
  | nil => rfl
  | cons b bytes ih =>
    have notFirst : s.phys (addW a n).toNat ≠ j := outside 0 (by simp)
    have notLater : ∀ i, i < bytes.length →
        (s.writeByte (addW a n) b).phys (addW a (n + 1 + i)).toNat ≠ j := fun i hi => by
      rw [State.phys_writeByte, show n + 1 + i = n + (i + 1) by omega]
      exact outside (i + 1) (by simpa using hi)
    rw [State.loadBytes, ih (h.writeByte _ _) (n + 1) notLater,
      State.read_writeByte_of_ne h _ _ notFirst.symm]

/-- R183: the bytes are written in order, so of those that fall on one physical byte the last
stays. -/
theorem State.Wf.read_loadBytes_last {s : State} (h : s.Wf) (a : Word) (n : Nat)
    (bytes : List Byte) {i : Nat} (inBlock : i < bytes.length)
    (last : ∀ k, i < k → k < bytes.length →
      s.phys (addW a (n + k)).toNat ≠ s.phys (addW a (n + i)).toNat) :
    some ((s.loadBytes a n bytes).mem.read (s.phys (addW a (n + i)).toNat)) = bytes[i]? := by
  induction bytes generalizing s n i with
  | nil => exact absurd inBlock (Nat.not_lt_zero i)
  | cons b bytes ih =>
    have hw : (s.writeByte (addW a n) b).Wf := h.writeByte _ _
    have shift : ∀ k, n + 1 + k = n + (k + 1) := fun k => by omega
    rw [State.loadBytes]
    cases i with
    | zero =>
      have notOverwritten : ∀ k, k < bytes.length →
          (s.writeByte (addW a n) b).phys (addW a (n + 1 + k)).toNat ≠
            s.phys (addW a n).toNat := fun k hk => by
        rw [State.phys_writeByte, shift]
        exact last (k + 1) (by omega) (by simpa using hk)
      rw [Nat.add_zero n, hw.read_loadBytes_of_ne a (n + 1) bytes notOverwritten,
        State.read_writeByte_same h, List.getElem?_cons_zero]
    | succ i =>
      have inTail : i < bytes.length := by simpa using inBlock
      have lastInTail : ∀ k, i < k → k < bytes.length →
          (s.writeByte (addW a n) b).phys (addW a (n + 1 + k)).toNat ≠
            (s.writeByte (addW a n) b).phys (addW a (n + 1 + i)).toNat := fun k hik hk => by
        rw [State.phys_writeByte, State.phys_writeByte, shift, shift]
        exact last (k + 1) (by omega) (by simpa using hk)
      rw [List.getElem?_cons_succ, ← shift i, ← ih hw (n + 1) inTail lastInTail,
        State.phys_writeByte]

/-! #### Placing a block -/

/-- R182, R184: placing a block changes memory, and appends its segment. -/
theorem State.place_eq (s : State) (a : Word) (bytes : List Byte) (name : String) :
    s.place a bytes name =
      { s with
        mem := (s.place a bytes name).mem
        segments := s.segments ++ [{ name := name, start := a, length := bytes.length }] } := by
  rw [State.place, State.loadBytes_eq]

@[simp] theorem State.place_regs (s : State) (a : Word) (bytes : List Byte) (name : String) :
    (s.place a bytes name).regs = s.regs := State.loadBytes_regs s a 0 bytes

@[simp] theorem State.place_status (s : State) (a : Word) (bytes : List Byte) (name : String) :
    (s.place a bytes name).status = s.status := State.loadBytes_status s a 0 bytes

theorem State.Wf.read_place_last {s : State} (h : s.Wf) (a : Word) (bytes : List Byte)
    (name : String) (i : Nat) (inBlock : i < bytes.length)
    (last : ∀ k, i < k → k < bytes.length →
      s.phys (addW a k).toNat ≠ s.phys (addW a i).toNat) :
    some ((s.place a bytes name).mem.read (s.phys (addW a i).toNat)) = bytes[i]? := by
  have block := h.read_loadBytes_last a 0 bytes inBlock
  simp only [Nat.zero_add] at block
  exact block last

theorem State.Wf.read_place_of_ne {s : State} (h : s.Wf) (a : Word) (bytes : List Byte)
    (name : String) (j : Nat)
    (outside : ∀ i, i < bytes.length → s.phys (addW a i).toNat ≠ j) :
    (s.place a bytes name).mem.read j = s.mem.read j :=
  h.read_loadBytes_of_ne a 0 bytes fun i hi => by
    rw [Nat.zero_add]
    exact outside i hi

/-! #### What the loader answers -/

theorem State.loadProgram_of_not_ready {s : State} (h : s.status ≠ .ready) (a : Word)
    (bytes : List Byte) (name : String) :
    s.loadProgram a bytes name = .refused .loadAfterRun := if_neg h

theorem State.loadData_of_ready {s : State} (h : s.status = .ready) (a : Word)
    (bytes : List Byte) (name : String) :
    s.loadData a bytes name =
      .next (s.place (if a = 0 then s.autoStart else a) bytes name) := if_pos h

theorem State.loadData_of_not_ready {s : State} (h : s.status ≠ .ready) (a : Word)
    (bytes : List Byte) (name : String) :
    s.loadData a bytes name = .refused .loadAfterRun := if_neg h

/-- R182, R186: the loader answers a next state only before Run, and it is the block placed, for
LoadProgram with the instruction pointer set. -/
theorem State.load_eq_next {s t : State} {a : Word} {bytes : List Byte} {name : String}
    (h : s.loadProgram a bytes name = .next t ∨ s.loadData a bytes name = .next t) :
    s.status = .ready ∧ ∃ start, t = (s.place start bytes name).setReg 0 start ∨
      t = s.place start bytes name := by
  by_cases ready : s.status = .ready
  · refine ⟨ready, ?_⟩
    rw [State.loadProgram_of_ready ready, State.loadData_of_ready ready] at h
    rcases h with program | data
    · injection program with placed
      exact ⟨_, .inl placed.symm⟩
    · injection data with placed
      exact ⟨_, .inr placed.symm⟩
  · rw [State.loadProgram_of_not_ready ready, State.loadData_of_not_ready ready] at h
    rcases h with refused | refused <;> cases refused

/-- R35, R180: the registers of `Construct` past the base pointer. -/
theorem State.getReg_initial {c : Config} {r : Nat} (pastBase : 3 ≤ r) (inRange : r < c.nreg) :
    (State.initial c).getReg r = c.gpInit := by
  have index : r - 3 < c.nreg - 3 := by omega
  rw [State.getReg, State.initial, List.getD_append_right _ _ _ _ pastBase]
  exact List.getD_replicate _ index

/-- Settles O57: both calls test the status first. -/
theorem loaderIsRefusedAfterRun : Obligations.LoaderIsRefusedAfterRun :=
  fun _ a bytes name started =>
    ⟨State.loadProgram_of_not_ready started a bytes name,
      State.loadData_of_not_ready started a bytes name⟩

/-- Settles O27: the initial state with the count given, and the program loaded into that state. -/
theorem constructMakesTheInitialState : Obligations.ConstructMakesTheInitialState := by
  intro c k bytes hc
  obtain ⟨-, length, -⟩ := State.initial_wf hc
  exact ⟨_, construct_none hc k, rfl, rfl, rfl, length, rfl, rfl, rfl,
    fun _ => State.getReg_initial, fun _ => rfl, rfl, rfl, rfl, rfl, rfl, rfl, rfl,
    construct_some hc k bytes⟩

/-- Settles O55: the block is placed, which touches no register, and then the instruction pointer
is set, which touches no memory. -/
theorem loadProgramPlacesTheBlock : Obligations.LoadProgramPlacesTheBlock := by
  intro s a bytes name hs ready
  have placed : (s.place a bytes name).Wf := hs.place a bytes name
  have otherRegs : s.SameRegsExcept (s.place a bytes name) [] :=
    ⟨by rw [State.place_regs], fun r _ => by rw [State.getReg, State.place_regs, State.getReg]⟩
  refine ⟨_, State.loadProgram_of_ready ready a bytes name, ?_, placed.ip_setReg a,
    otherRegs.trans (State.sameRegsExcept_setReg _ 0 a), hs.read_place_last a bytes name,
    hs.read_place_of_ne a bytes name⟩
  rw [State.setReg, State.place_eq]

/-- Settles O56: the block is placed at the start used, and nothing follows. -/
theorem loadDataPlacesTheBlock : Obligations.LoadDataPlacesTheBlock := by
  intro s a bytes name hs start ready
  exact ⟨_, State.loadData_of_ready ready a bytes name, State.place_eq s start bytes name,
    hs.read_place_last start bytes name, hs.read_place_of_ne start bytes name⟩

/-- Settles O58: placing a block keeps the invariant and the status, and so does setting the
instruction pointer. -/
theorem loaderKeepsTheInvariant : Obligations.LoaderKeepsTheInvariant := by
  intro s t a bytes name hs loaded
  obtain ⟨ready, start, rfl | rfl⟩ := State.load_eq_next loaded
  · exact ⟨(hs.place start bytes name).setReg 0 start, by simp [ready]⟩
  · exact ⟨hs.place start bytes name, by simp [ready]⟩

end Machine

end Sys2Proof
end
